-- ==== Sys2Proof/Word.lean ====
section
/-! DEFINITION. The 16-bit word of the belt machine (00_scope.md R6, R8). -/

namespace Sys2Proof

/-- Belt entries, memory words, pc, sp, constants and addresses: 16 bits (00_scope.md R6). -/
abbrev Word := BitVec 16

end Sys2Proof
end

