-- ==== Sys2Proof/Syntax.lean ====
section
/-! DEFINITION. The instruction set as syntax: the seven classes, their operations, and the twenty-nine
instructions, one constructor per row of spec/opcode_table.json (00_scope.md R2, 40_codec_and_step.md R90). -/

namespace Sys2Proof

/-- A belt position field of an instruction: 4 bits, a value 0..15 used directly as the index of `b[i]`
(30_encoding.md R62, R73). -/
abbrev BeltPos := BitVec 4

/-- The 4-bit unsigned immediate of class Immediate (30_encoding.md R67). -/
abbrev Imm4 := BitVec 4

/-- The seven classes (00_scope.md R2; seven and not six: 90_conflicts.md C1). -/
inductive OpClass where
  | beltConstant
  | constant
  | immediate
  | register
  | branch
  | unary
  | zero
deriving DecidableEq, Repr

/-- Operations of class 1 (40_codec_and_step.md R90). -/
inductive BeltConstantOp where
  | and
  | or
  | xor
deriving DecidableEq, Repr

/-- Operations of class 2 (40_codec_and_step.md R90). -/
inductive ConstantOp where
  | loadFromMemory
  | loadConstant
  | call
  | jump
deriving DecidableEq, Repr

/-- Operations of class 3 (40_codec_and_step.md R90). -/
inductive ImmediateOp where
  | shiftLeft
  | shiftRight
  | ret
deriving DecidableEq, Repr

/-- Operations of class 4 (40_codec_and_step.md R90). DESIGN CHOICE (log entry 2), unsafe: seven of the ten are
the default of REG_OPS (92_eei_decisions.md D1). -/
inductive RegisterOp where
  | add
  | sub
  | mul
  | div
  | and
  | or
  | xor
  | shiftLeft
  | shiftRight
  | save
deriving DecidableEq, Repr

/-- Operations of class 5 (40_codec_and_step.md R90). -/
inductive BranchOp where
  | lt
  | le
  | eq
deriving DecidableEq, Repr

/-- Operations of class 6 (40_codec_and_step.md R90). -/
inductive UnaryOp where
  | load
  | jump
  | push
deriving DecidableEq, Repr

/-- Operations of class 7 (40_codec_and_step.md R90). -/
inductive ZeroOp where
  | nop
  | pop
  | break
deriving DecidableEq, Repr

/-- The decoded instruction (40_codec_and_step.md R90). Constants and addresses are plain 16-bit numbers: a label
does not exist in hardware (R91). -/
inductive Instr where
  | beltConstantAnd (pos : BeltPos) (const : Word)
  | beltConstantOr (pos : BeltPos) (const : Word)
  | beltConstantXor (pos : BeltPos) (const : Word)
  | constantLoadFromMemory (const : Word)
  | constantLoadConstant (const : Word)
  | constantCall (const : Word)
  | constantJump (const : Word)
  | immediateShiftLeft (pos : BeltPos) (imm : Imm4)
  | immediateShiftRight (pos : BeltPos) (imm : Imm4)
  | immediateRet (pos : BeltPos) (imm : Imm4)
  | registerAdd (pos1 pos2 : BeltPos)
  | registerSub (pos1 pos2 : BeltPos)
  | registerMul (pos1 pos2 : BeltPos)
  | registerDiv (pos1 pos2 : BeltPos)
  | registerAnd (pos1 pos2 : BeltPos)
  | registerOr (pos1 pos2 : BeltPos)
  | registerXor (pos1 pos2 : BeltPos)
  | registerShiftLeft (pos1 pos2 : BeltPos)
  | registerShiftRight (pos1 pos2 : BeltPos)
  | registerSave (pos1 pos2 : BeltPos)
  | branchLt (pos1 pos2 : BeltPos) (addr : Word)
  | branchLe (pos1 pos2 : BeltPos) (addr : Word)
  | branchEq (pos1 pos2 : BeltPos) (addr : Word)
  | unaryLoad (pos : BeltPos)
  | unaryJump (pos : BeltPos)
  | unaryPush (pos : BeltPos)
  | zeroNop
  | zeroPop
  | zeroBreak
deriving DecidableEq, Repr

end Sys2Proof
end

