-- ==== Sys2Proof/Config.lean ====
section
/-! DEFINITION. The types of the parameters the spec leaves open (00_scope.md R7). Their default VALUES stand where
a repair may mend them: the sub-opcode numbers in Sys2Proof/Decode.lean, the others in Sys2Proof/Machine/Params.lean
and the result codes in Sys2Proof/Machine/Result.lean. The spec leaves no result of an instruction undefined, so the
model has no free value (93_implementation_defined.md). -/

namespace Sys2Proof

/-- SUBOP_MAP: the number of every operation within its class (30_encoding.md R72, 92_eei_decisions.md D2). The
codec takes it as an argument; what the spec says of the codec holds for any map that is injective in each class. -/
structure SubopMap where
  beltConstant : BeltConstantOp → BitVec 4
  constant : ConstantOp → BitVec 4
  immediate : ImmediateOp → BitVec 4
  register : RegisterOp → BitVec 4
  branch : BranchOp → BitVec 4
  unary : UnaryOp → BitVec 4
  zero : ZeroOp → BitVec 4

/-- The operations of each class, in the order of 30_encoding.md R72. -/
def BeltConstantOp.all : List BeltConstantOp := [.and, .or, .xor]

def ConstantOp.all : List ConstantOp := [.loadFromMemory, .loadConstant, .call, .jump]

def ImmediateOp.all : List ImmediateOp := [.shiftLeft, .shiftRight, .ret]

def RegisterOp.all : List RegisterOp :=
  [.add, .sub, .mul, .div, .and, .or, .xor, .shiftLeft, .shiftRight, .save]

def BranchOp.all : List BranchOp := [.lt, .le, .eq]

def UnaryOp.all : List UnaryOp := [.load, .jump, .push]

def ZeroOp.all : List ZeroOp := [.nop, .pop, .break]

/-- SIGNEDNESS of compare, divide and shift right (92_eei_decisions.md D3). -/
inductive Signedness where
  | unsigned
  | signed
deriving DecidableEq, Repr

/-- CALL_LINK: whether Call pushes a return address itself (92_eei_decisions.md D5, 42_constant.md R123). The spec's
value `none` is `noLink` here. -/
inductive CallLink where
  | noLink
  | pushNextPc
deriving DecidableEq, Repr

/-- REG_SHIFT_AMOUNT: a Register-class shift amount of 16 or more (92_eei_decisions.md D10). -/
inductive RegShiftAmount where
  | mod16
  | zeroWhenGe16
deriving DecidableEq, Repr

end Sys2Proof
end

