-- ==== Sys2Proof/WellFormed.lean ====
section
/-! DEFINITION. Well-formedness: of a sub-opcode map, of the instruction values a software encoder can be handed, and
of `Instr` itself (40_codec_and_step.md R90, R96; 93_implementation_defined.md U3, U4, U5). -/

namespace Sys2Proof

/-- SUBOP_MAP is an injective map from each class's operations to 4-bit values (30_encoding.md R72, R80;
92_eei_decisions.md D2). -/
abbrev SubopMap.Injective (m : SubopMap) : Prop :=
  (BeltConstantOp.all.map m.beltConstant).Nodup ∧
  (ConstantOp.all.map m.constant).Nodup ∧
  (ImmediateOp.all.map m.immediate).Nodup ∧
  (RegisterOp.all.map m.register).Nodup ∧
  (BranchOp.all.map m.branch).Nodup ∧
  (UnaryOp.all.map m.unary).Nodup ∧
  (ZeroOp.all.map m.zero).Nodup

/-- A constant before label resolution, in the assembler's data model (40_codec_and_step.md R91). A resolved constant
is a natural number here, so that one outside 16 bits can be written down and refused. -/
inductive ConstantOrLabel where
  | constant (value : Nat)
  | label (name : String)
deriving DecidableEq, Repr

/-- The instruction value a software `encode` can be handed: the seven variants of 40_codec_and_step.md R90 with
fields wider than the encoding's. The hardware's instruction is `Instr`. -/
inductive SourceInstr where
  | beltConstant (op : BeltConstantOp) (pos : Nat) (const : ConstantOrLabel)
  | constant (op : ConstantOp) (const : ConstantOrLabel)
  | immediate (op : ImmediateOp) (pos imm : Nat)
  | register (op : RegisterOp) (pos1 pos2 : Nat)
  | branch (op : BranchOp) (pos1 pos2 : Nat) (addr : ConstantOrLabel)
  | unary (op : UnaryOp) (pos : Nat)
  | zero (op : ZeroOp)
deriving DecidableEq, Repr

/-- A belt position or an immediate is 0..15 (40_codec_and_step.md R90). -/
def nibbleInRange (n : Nat) : Bool := n < 16

/-- A constant is a resolved number 0..0xFFFF; a label is not (40_codec_and_step.md R90, R91). -/
def ConstantOrLabel.inRange : ConstantOrLabel → Bool
  | .constant v => v < 65536
  | .label _ => false

/-- Well-formed: every field within the ranges of 40_codec_and_step.md R90, no label left. -/
def SourceInstr.wellFormed : SourceInstr → Bool
  | .beltConstant _ pos const => nibbleInRange pos && const.inRange
  | .constant _ const => const.inRange
  | .immediate _ pos imm => nibbleInRange pos && nibbleInRange imm
  | .register _ pos1 pos2 => nibbleInRange pos1 && nibbleInRange pos2
  | .branch _ pos1 pos2 addr => nibbleInRange pos1 && nibbleInRange pos2 && addr.inRange
  | .unary _ pos => nibbleInRange pos
  | .zero _ => true

/-- The ranges of 40_codec_and_step.md R90 for the hardware's `Instr`. Its types cannot hold a value outside them, as
93_implementation_defined.md U5 asks, so every `Instr` meets the check. -/
def Instr.wellFormed : Instr → Bool
  | .beltConstantAnd pos const => nibbleInRange pos.toNat && const.toNat < 65536
  | .beltConstantOr pos const => nibbleInRange pos.toNat && const.toNat < 65536
  | .beltConstantXor pos const => nibbleInRange pos.toNat && const.toNat < 65536
  | .constantLoadFromMemory const => const.toNat < 65536
  | .constantLoadConstant const => const.toNat < 65536
  | .constantCall const => const.toNat < 65536
  | .constantJump const => const.toNat < 65536
  | .immediateShiftLeft pos imm => nibbleInRange pos.toNat && nibbleInRange imm.toNat
  | .immediateShiftRight pos imm => nibbleInRange pos.toNat && nibbleInRange imm.toNat
  | .immediateRet pos imm => nibbleInRange pos.toNat && nibbleInRange imm.toNat
  | .registerAdd pos1 pos2 => nibbleInRange pos1.toNat && nibbleInRange pos2.toNat
  | .registerSub pos1 pos2 => nibbleInRange pos1.toNat && nibbleInRange pos2.toNat
  | .registerMul pos1 pos2 => nibbleInRange pos1.toNat && nibbleInRange pos2.toNat
  | .registerDiv pos1 pos2 => nibbleInRange pos1.toNat && nibbleInRange pos2.toNat
  | .registerAnd pos1 pos2 => nibbleInRange pos1.toNat && nibbleInRange pos2.toNat
  | .registerOr pos1 pos2 => nibbleInRange pos1.toNat && nibbleInRange pos2.toNat
  | .registerXor pos1 pos2 => nibbleInRange pos1.toNat && nibbleInRange pos2.toNat
  | .registerShiftLeft pos1 pos2 => nibbleInRange pos1.toNat && nibbleInRange pos2.toNat
  | .registerShiftRight pos1 pos2 => nibbleInRange pos1.toNat && nibbleInRange pos2.toNat
  | .registerSave pos1 pos2 => nibbleInRange pos1.toNat && nibbleInRange pos2.toNat
  | .branchLt pos1 pos2 addr => nibbleInRange pos1.toNat && nibbleInRange pos2.toNat && addr.toNat < 65536
  | .branchLe pos1 pos2 addr => nibbleInRange pos1.toNat && nibbleInRange pos2.toNat && addr.toNat < 65536
  | .branchEq pos1 pos2 addr => nibbleInRange pos1.toNat && nibbleInRange pos2.toNat && addr.toNat < 65536
  | .unaryLoad pos => nibbleInRange pos.toNat
  | .unaryJump pos => nibbleInRange pos.toNat
  | .unaryPush pos => nibbleInRange pos.toNat
  | .zeroNop => true
  | .zeroPop => true
  | .zeroBreak => true

end Sys2Proof
end

