-- ==== Sys2Proof/Decode.lean ====
section
/-! DEFINITION. The codec (40_codec_and_step.md R92 to R97, 30_encoding.md): the default sub-opcode numbers, the
decoder, the encoder after it, and the host's `decodeTableWord`. -/

namespace Sys2Proof

/-- The default SUBOP_MAP (30_encoding.md R72, R79). DESIGN CHOICE (log entry 1), unsafe: the numbers are the spec's own
decision D2. -/
def subopMap : SubopMap where
  beltConstant
    | .and => 0
    | .or => 1
    | .xor => 2
  constant
    | .loadFromMemory => 0
    | .loadConstant => 1
    | .call => 2
    | .jump => 3
  immediate
    | .shiftLeft => 0
    | .shiftRight => 1
    | .ret => 2
  register
    | .add => 0
    | .sub => 1
    | .mul => 2
    | .div => 3
    | .and => 4
    | .or => 5
    | .xor => 6
    | .shiftLeft => 7
    | .shiftRight => 8
    | .save => 9
  branch
    | .lt => 0
    | .le => 1
    | .eq => 2
  unary
    | .load => 0
    | .jump => 1
    | .push => 2
  zero
    | .nop => 0
    | .pop => 1
    | .break => 2

/-! ### Fields of the first word (30_encoding.md R61) -/

/-- `w0[15:12]`, the main opcode. -/
def mainField (w0 : Word) : BitVec 4 := w0.extractLsb' 12 4

/-- `w0[11:8]`, the sub-opcode: always four bits (90_conflicts.md C2). -/
def subField (w0 : Word) : BitVec 4 := w0.extractLsb' 8 4

/-- `w0[7:4]`, the first operand nibble. -/
def op1Field (w0 : Word) : BitVec 4 := w0.extractLsb' 4 4

/-- `w0[3:0]`, the second operand nibble. -/
def op2Field (w0 : Word) : BitVec 4 := w0.extractLsb' 0 4

/-- `main ++ sub ++ op1 ++ op2`, the most significant nibble first (30_encoding.md R61, 40_codec_and_step.md R96). -/
def firstWord (main sub op1 op2 : BitVec 4) : Word := main ++ sub ++ op1 ++ op2

/-- The main-opcode value of each class (30_encoding.md R64). -/
def OpClass.main : OpClass → BitVec 4
  | .beltConstant => 1
  | .constant => 2
  | .immediate => 3
  | .register => 4
  | .branch => 5
  | .unary => 6
  | .zero => 7

/-- The class a main opcode selects; 0 and 8..15 belong to no class (30_encoding.md R74). -/
def OpClass.ofMain (main : BitVec 4) : Option OpClass :=
  match main.toNat with
  | 1 => some .beltConstant
  | 2 => some .constant
  | 3 => some .immediate
  | 4 => some .register
  | 5 => some .branch
  | 6 => some .unary
  | 7 => some .zero
  | _ => none

/-- The length in words, a function of the class alone (30_encoding.md R60). -/
def OpClass.words : OpClass → Nat
  | .beltConstant => 2
  | .constant => 2
  | .immediate => 1
  | .register => 1
  | .branch => 2
  | .unary => 1
  | .zero => 1

/-! ### From class and operation to the instruction, and back -/

def Instr.ofBeltConstant (op : BeltConstantOp) (pos : BeltPos) (const : Word) : Instr :=
  match op with
  | .and => .beltConstantAnd pos const
  | .or => .beltConstantOr pos const
  | .xor => .beltConstantXor pos const

def Instr.ofConstant (op : ConstantOp) (const : Word) : Instr :=
  match op with
  | .loadFromMemory => .constantLoadFromMemory const
  | .loadConstant => .constantLoadConstant const
  | .call => .constantCall const
  | .jump => .constantJump const

def Instr.ofImmediate (op : ImmediateOp) (pos : BeltPos) (imm : Imm4) : Instr :=
  match op with
  | .shiftLeft => .immediateShiftLeft pos imm
  | .shiftRight => .immediateShiftRight pos imm
  | .ret => .immediateRet pos imm

def Instr.ofRegister (op : RegisterOp) (pos1 pos2 : BeltPos) : Instr :=
  match op with
  | .add => .registerAdd pos1 pos2
  | .sub => .registerSub pos1 pos2
  | .mul => .registerMul pos1 pos2
  | .div => .registerDiv pos1 pos2
  | .and => .registerAnd pos1 pos2
  | .or => .registerOr pos1 pos2
  | .xor => .registerXor pos1 pos2
  | .shiftLeft => .registerShiftLeft pos1 pos2
  | .shiftRight => .registerShiftRight pos1 pos2
  | .save => .registerSave pos1 pos2

def Instr.ofBranch (op : BranchOp) (pos1 pos2 : BeltPos) (addr : Word) : Instr :=
  match op with
  | .lt => .branchLt pos1 pos2 addr
  | .le => .branchLe pos1 pos2 addr
  | .eq => .branchEq pos1 pos2 addr

def Instr.ofUnary (op : UnaryOp) (pos : BeltPos) : Instr :=
  match op with
  | .load => .unaryLoad pos
  | .jump => .unaryJump pos
  | .push => .unaryPush pos

def Instr.ofZero (op : ZeroOp) : Instr :=
  match op with
  | .nop => .zeroNop
  | .pop => .zeroPop
  | .break => .zeroBreak

/-- The class of an instruction (40_codec_and_step.md R90). -/
def Instr.opClass : Instr → OpClass
  | .beltConstantAnd _ _ => .beltConstant
  | .beltConstantOr _ _ => .beltConstant
  | .beltConstantXor _ _ => .beltConstant
  | .constantLoadFromMemory _ => .constant
  | .constantLoadConstant _ => .constant
  | .constantCall _ => .constant
  | .constantJump _ => .constant
  | .immediateShiftLeft _ _ => .immediate
  | .immediateShiftRight _ _ => .immediate
  | .immediateRet _ _ => .immediate
  | .registerAdd _ _ => .register
  | .registerSub _ _ => .register
  | .registerMul _ _ => .register
  | .registerDiv _ _ => .register
  | .registerAnd _ _ => .register
  | .registerOr _ _ => .register
  | .registerXor _ _ => .register
  | .registerShiftLeft _ _ => .register
  | .registerShiftRight _ _ => .register
  | .registerSave _ _ => .register
  | .branchLt _ _ _ => .branch
  | .branchLe _ _ _ => .branch
  | .branchEq _ _ _ => .branch
  | .unaryLoad _ => .unary
  | .unaryJump _ => .unary
  | .unaryPush _ => .unary
  | .zeroNop => .zero
  | .zeroPop => .zero
  | .zeroBreak => .zero

/-- The number of words an instruction occupies (30_encoding.md R60). -/
def Instr.words (i : Instr) : Nat := i.opClass.words

/-! ### decode (40_codec_and_step.md R92 to R95) -/

/-- Why a first word does not decode. DESIGN CHOICE (log entry 20), safe: the spec's `None` carries no reason
(40_codec_and_step.md R93), and the step answers Stop for each of the three alike. -/
inductive DecodeError where
  /-- The main opcode is 0 or 8..15 (30_encoding.md R74). -/
  | illegalMain
  /-- The sub-opcode is reserved in its class (30_encoding.md R75). -/
  | reservedSub
  /-- A nibble the class does not use is not zero (30_encoding.md R76). -/
  | unusedNibble
deriving DecidableEq, Repr

/-- `subop_c(s)`: the operation of the class whose code is `s`, if there is one (40_codec_and_step.md R92). -/
def subopOf {Op : Type} (code : Op → BitVec 4) (sub : BitVec 4) : List Op → Except DecodeError Op
  | [] => .error .reservedSub
  | op :: rest => if code op = sub then .ok op else subopOf code sub rest

/-- `decode` with the reason of a failure named, under any SUBOP_MAP (40_codec_and_step.md R92). -/
def decodeNamed (m : SubopMap) (w0 w1 : Word) : Except DecodeError (Instr × Nat) :=
  let sub := subField w0
  let o1 := op1Field w0
  let o2 := op2Field w0
  match OpClass.ofMain (mainField w0) with
  | none => .error .illegalMain
  | some .beltConstant =>
    match subopOf m.beltConstant sub BeltConstantOp.all with
    | .error e => .error e
    | .ok op => if o2 = 0 then .ok (Instr.ofBeltConstant op o1 w1, 2) else .error .unusedNibble
  | some .constant =>
    match subopOf m.constant sub ConstantOp.all with
    | .error e => .error e
    | .ok op => if o1 = 0 ∧ o2 = 0 then .ok (Instr.ofConstant op w1, 2) else .error .unusedNibble
  | some .immediate =>
    match subopOf m.immediate sub ImmediateOp.all with
    | .error e => .error e
    | .ok op => .ok (Instr.ofImmediate op o1 o2, 1)
  | some .register =>
    match subopOf m.register sub RegisterOp.all with
    | .error e => .error e
    | .ok op => .ok (Instr.ofRegister op o1 o2, 1)
  | some .branch =>
    match subopOf m.branch sub BranchOp.all with
    | .error e => .error e
    | .ok op => .ok (Instr.ofBranch op o1 o2 w1, 2)
  | some .unary =>
    match subopOf m.unary sub UnaryOp.all with
    | .error e => .error e
    | .ok op => if o2 = 0 then .ok (Instr.ofUnary op o1, 1) else .error .unusedNibble
  | some .zero =>
    match subopOf m.zero sub ZeroOp.all with
    | .error e => .error e
    | .ok op => if o1 = 0 ∧ o2 = 0 then .ok (Instr.ofZero op, 1) else .error .unusedNibble

/-- `decode(w0, w1)` under any SUBOP_MAP: the instruction and the number of words consumed, or none
(40_codec_and_step.md R92, R93, R94). -/
def decodeWith (m : SubopMap) (w0 w1 : Word) : Option (Instr × Nat) :=
  match decodeNamed m w0 w1 with
  | .error _ => none
  | .ok r => some r

/-- The machine's decoder, under the default SUBOP_MAP. -/
def decode (w0 w1 : Word) : Option (Instr × Nat) := decodeWith subopMap w0 w1

/-- A software `decode` whose second word may be absent: none for a two-word class without one
(40_codec_and_step.md R95; log entry 16). The machine never uses it. -/
def decodeOptional (m : SubopMap) (w0 : Word) (w1 : Option Word) : Option (Instr × Nat) :=
  match w1 with
  | some k => decodeWith m w0 k
  | none =>
    match decodeWith m w0 0 with
    | some (i, n) => if n = 1 then some (i, n) else none
    | none => none

/-- The decoder's output `valid` (40_codec_and_step.md R94, R105). -/
def decodeValid (w0 w1 : Word) : Bool := (decode w0 w1).isSome

/-! ### encode (40_codec_and_step.md R96) -/

/-- `encode(instr)` under any SUBOP_MAP: the first word and, for the two-word classes, the second
(40_codec_and_step.md R96). -/
def encodeWith (m : SubopMap) : Instr → Word × Option Word
  | .beltConstantAnd pos const => (firstWord 1 (m.beltConstant .and) pos 0, some const)
  | .beltConstantOr pos const => (firstWord 1 (m.beltConstant .or) pos 0, some const)
  | .beltConstantXor pos const => (firstWord 1 (m.beltConstant .xor) pos 0, some const)
  | .constantLoadFromMemory const => (firstWord 2 (m.constant .loadFromMemory) 0 0, some const)
  | .constantLoadConstant const => (firstWord 2 (m.constant .loadConstant) 0 0, some const)
  | .constantCall const => (firstWord 2 (m.constant .call) 0 0, some const)
  | .constantJump const => (firstWord 2 (m.constant .jump) 0 0, some const)
  | .immediateShiftLeft pos imm => (firstWord 3 (m.immediate .shiftLeft) pos imm, none)
  | .immediateShiftRight pos imm => (firstWord 3 (m.immediate .shiftRight) pos imm, none)
  | .immediateRet pos imm => (firstWord 3 (m.immediate .ret) pos imm, none)
  | .registerAdd pos1 pos2 => (firstWord 4 (m.register .add) pos1 pos2, none)
  | .registerSub pos1 pos2 => (firstWord 4 (m.register .sub) pos1 pos2, none)
  | .registerMul pos1 pos2 => (firstWord 4 (m.register .mul) pos1 pos2, none)
  | .registerDiv pos1 pos2 => (firstWord 4 (m.register .div) pos1 pos2, none)
  | .registerAnd pos1 pos2 => (firstWord 4 (m.register .and) pos1 pos2, none)
  | .registerOr pos1 pos2 => (firstWord 4 (m.register .or) pos1 pos2, none)
  | .registerXor pos1 pos2 => (firstWord 4 (m.register .xor) pos1 pos2, none)
  | .registerShiftLeft pos1 pos2 => (firstWord 4 (m.register .shiftLeft) pos1 pos2, none)
  | .registerShiftRight pos1 pos2 => (firstWord 4 (m.register .shiftRight) pos1 pos2, none)
  | .registerSave pos1 pos2 => (firstWord 4 (m.register .save) pos1 pos2, none)
  | .branchLt pos1 pos2 addr => (firstWord 5 (m.branch .lt) pos1 pos2, some addr)
  | .branchLe pos1 pos2 addr => (firstWord 5 (m.branch .le) pos1 pos2, some addr)
  | .branchEq pos1 pos2 addr => (firstWord 5 (m.branch .eq) pos1 pos2, some addr)
  | .unaryLoad pos => (firstWord 6 (m.unary .load) pos 0, none)
  | .unaryJump pos => (firstWord 6 (m.unary .jump) pos 0, none)
  | .unaryPush pos => (firstWord 6 (m.unary .push) pos 0, none)
  | .zeroNop => (firstWord 7 (m.zero .nop) 0 0, none)
  | .zeroPop => (firstWord 7 (m.zero .pop) 0 0, none)
  | .zeroBreak => (firstWord 7 (m.zero .break) 0 0, none)

/-- The encoder under the default SUBOP_MAP. -/
def encode (i : Instr) : Word × Option Word := encodeWith subopMap i

/-- The words of an instruction in the order they lie in memory (20_memory.md R44). -/
def encodeWords (i : Instr) : List Word := (encode i).1 :: (encode i).2.toList

/-! ### The software encoder's preconditions (40_codec_and_step.md R96; 93_implementation_defined.md U3, U4, U5) -/

/-- Why a software `encode` refuses a value: it never emits a word for one (log entry 17). -/
inductive EncodeError where
  /-- A constant or address is still a label (40_codec_and_step.md R96, precondition 1; U4). -/
  | unresolvedLabel
  /-- A position, an immediate or a constant is outside its field (R96, precondition 2; U3, U5). -/
  | fieldOutOfRange
deriving DecidableEq, Repr

/-- A position or immediate as its 4-bit field, refused outside 0..15 and never truncated (U5). -/
def nibbleOf (n : Nat) : Except EncodeError (BitVec 4) :=
  if nibbleInRange n then .ok (BitVec.ofNat 4 n) else .error .fieldOutOfRange

/-- A constant as its 16-bit field, refused when it is a label or outside 0..0xFFFF (U4, U5). -/
def constantOf : ConstantOrLabel → Except EncodeError Word
  | .constant v => if v < 65536 then .ok (BitVec.ofNat 16 v) else .error .fieldOutOfRange
  | .label _ => .error .unresolvedLabel

/-- The hardware instruction a software value stands for, or why it stands for none. -/
def SourceInstr.resolve : SourceInstr → Except EncodeError Instr
  | .beltConstant op pos const =>
    match nibbleOf pos, constantOf const with
    | .ok p, .ok k => .ok (Instr.ofBeltConstant op p k)
    | .error e, _ => .error e
    | _, .error e => .error e
  | .constant op const =>
    match constantOf const with
    | .ok k => .ok (Instr.ofConstant op k)
    | .error e => .error e
  | .immediate op pos imm =>
    match nibbleOf pos, nibbleOf imm with
    | .ok p, .ok i => .ok (Instr.ofImmediate op p i)
    | .error e, _ => .error e
    | _, .error e => .error e
  | .register op pos1 pos2 =>
    match nibbleOf pos1, nibbleOf pos2 with
    | .ok p, .ok q => .ok (Instr.ofRegister op p q)
    | .error e, _ => .error e
    | _, .error e => .error e
  | .branch op pos1 pos2 addr =>
    match nibbleOf pos1, nibbleOf pos2, constantOf addr with
    | .ok p, .ok q, .ok k => .ok (Instr.ofBranch op p q k)
    | .error e, _, _ => .error e
    | _, .error e, _ => .error e
    | _, _, .error e => .error e
  | .unary op pos =>
    match nibbleOf pos with
    | .ok p => .ok (Instr.ofUnary op p)
    | .error e => .error e
  | .zero op => .ok (Instr.ofZero op)

/-- A software `encode` over values that may hold a label or a field out of range (40_codec_and_step.md R96). -/
def encodeSource (src : SourceInstr) : Except EncodeError (Word × Option Word) :=
  match src.resolve with
  | .ok i => .ok (encode i)
  | .error e => .error e

/-! ### The host's question to the decoder -/

/-- The two words of an instruction given as one number: bits 15..0 are the first word, bits 31..16 the second, and
every bit from `nbits` up is 0. -/
def tableWords (nbits w : Nat) : Word × Word :=
  let v := w % 2 ^ nbits
  (BitVec.ofNat 16 v, BitVec.ofNat 16 (v / 65536))

/-- The instruction the decoder reads from an instruction whose bits are `w`. -/
def decodeTableWord (nbits w : Nat) : Option Instr :=
  match decode (tableWords nbits w).1 (tableWords nbits w).2 with
  | some (i, _) => some i
  | none => none

end Sys2Proof
end

