-- ==== Sys2Proof/Machine/Params.lean ====
section
/-! DEFINITION. The default values of the parameters the instruction meanings depend on (00_scope.md R7). -/

namespace Sys2Proof.Machine

/-- SIGNEDNESS. DESIGN CHOICE (log entry 3), unsafe: unsigned by the spec's decision D3. -/
def signedness : Signedness := .unsigned

/-- CALL_LINK. DESIGN CHOICE (log entry 5), unsafe: `none` by the spec's decision D5, so Call pushes no return
address. -/
def callLink : CallLink := .noLink

/-- REG_SHIFT_AMOUNT. DESIGN CHOICE (log entry 10), unsafe: `mod_16` by the spec's decision D10. -/
def regShiftAmount : RegShiftAmount := .mod16

end Sys2Proof.Machine
end

