-- ==== Sys2Proof/Machine/Alu.lean ====
section
/-! DEFINITION. The 16-bit functions the instructions compute (44_register.md R151, 43_immediate.md R131, R132). -/

namespace Sys2Proof.Machine

/-- `trunc16(x + y)` (44_register.md R141). -/
def addWords (x y : Word) : Word := x + y

/-- `trunc16(x - y)` (44_register.md R142). -/
def subWords (x y : Word) : Word := x - y

/-- `trunc16(x * y)`, the low half of the product (44_register.md R143). DESIGN CHOICE (log entry 11), unsafe: D11. -/
def mulWords (x y : Word) : Word := x * y

/-- The quotient of a non-zero divisor, under a reading of the words (44_register.md R144). Signed: rounded toward zero,
0x8000 / 0xFFFF wrapping to 0x8000. DEDUCED (log entry 22): the signed reading is one sentence of decision D3. -/
def divWordsWith (sg : Signedness) (x y : Word) : Word :=
  match sg with
  | .unsigned => x / y
  | .signed => x.sdiv y

/-- `x div y`, unsigned, rounded toward zero (44_register.md R144; log entry 3). -/
def divWords (x y : Word) : Word := divWordsWith signedness x y

/-- Bitwise and, or, exclusive or (41_belt_constant.md R111 to R113, 44_register.md R145 to R147). -/
def andWords (x y : Word) : Word := x &&& y

def orWords (x y : Word) : Word := x ||| y

def xorWords (x y : Word) : Word := x ^^^ y

/-- `trunc16(x << k)` (43_immediate.md R131). -/
def shiftLeftBy (x : Word) (k : Nat) : Word := x <<< k

/-- Shift right by `k` under a reading of the words: zeros enter at the top, or copies of the sign. -/
def shiftRightWith (sg : Signedness) (x : Word) (k : Nat) : Word :=
  match sg with
  | .unsigned => x >>> k
  | .signed => x.sshiftRight k

/-- `x >> k`, logical (43_immediate.md R132; log entry 3). -/
def shiftRightBy (x : Word) (k : Nat) : Word := shiftRightWith signedness x k

/-- A Register-class shift under a treatment of amounts of 16 or more (44_register.md R148, R149): only the low four bits
of the amount count, or such an amount gives 0. -/
def shiftByWordWith (r : RegShiftAmount) (shift : Word → Nat → Word) (x y : Word) : Word :=
  match r with
  | .mod16 => shift x (y.toNat % 16)
  | .zeroWhenGe16 => if 16 ≤ y.toNat then 0 else shift x y.toNat

/-- Register.ShiftLeft's function (44_register.md R148; log entry 10). -/
def shiftLeftWords (x y : Word) : Word := shiftByWordWith regShiftAmount shiftLeftBy x y

/-- Register.ShiftRight's function (44_register.md R149; log entry 10). -/
def shiftRightWords (x y : Word) : Word := shiftByWordWith regShiftAmount shiftRightBy x y

end Sys2Proof.Machine
end

