-- ==== Sys2Proof/Machine/State.lean ====
section
/-! DEFINITION. The state of the belt machine: the four items of 10_state.md R20 and nothing else, their reset values,
and the reasons a step can stop. -/

namespace Sys2Proof.Machine

/-- The belt: sixteen words, index 0 the newest (10_state.md R21). DESIGN CHOICE (log entry 13), safe: the logical belt,
without the ring's `start`, which no instruction exposes (R25). -/
abbrev Belt := Vector Word 16

/-- One word of memory at a word address. The unit of addressing is the 16-bit word and no byte exists in the machine
(20_memory.md R40, R43, R44). DESIGN CHOICE (log entry 12), safe: the cell holds a word, not the host's byte. -/
abbrev MemCell := Nat × Word

/-- The memory as a list of (address, word) pairs in one canonical form, see `Memory.wf`. -/
abbrev Memory := List MemCell

/-- What an address no entry lists reads as: 0x0000, the reset contents (10_state.md R33; log entry 18). -/
def Memory.unlisted : Word := 0x0000#16

/-- The entries rise strictly from address `lo`, lie in the address space, and none equals what an unlisted address
reads as. -/
def Memory.wfFrom (lo : Nat) : Memory → Bool
  | [] => true
  | (a, v) :: rest => decide (lo ≤ a) && decide (a < 65536) && decide (v ≠ Memory.unlisted) && Memory.wfFrom (a + 1) rest

/-- The canonical form: with it, equal memories are equal lists. -/
def Memory.wf (m : Memory) : Bool := Memory.wfFrom 0 m

/-- The whole architectural state (10_state.md R20). -/
structure State where
  /-- The belt (10_state.md R21 to R23). -/
  belt : Belt
  /-- The one memory (10_state.md R33, 20_memory.md R41). -/
  mem : Memory
  /-- The program counter (10_state.md R29). -/
  pc : Word
  /-- The stack pointer: the next free word of the stack (10_state.md R30). -/
  sp : Word
deriving DecidableEq, Repr

/-- The two step results with which a step changes nothing and the machine halts (60_exceptions.md R190, R193). They
are not traps: nothing is saved and nothing is entered (R200). The state after one is the state before it, which
`Sys2Proof.Machine.stepWithResult` answers beside the result (log entry 14). -/
inductive Fault where
  /-- `Stop`, the normal halt. Raised by the step on a word that does not decode and by Zero.Break
  (60_exceptions.md R191). Safe: the spec halts here. -/
  | stop
  /-- `Fail`, the abnormal halt. Raised by Register.Div with a zero divisor alone (60_exceptions.md R192). Safe: the
  spec halts here. -/
  | fail
deriving DecidableEq, Repr

/-- Why the model gives an instruction no meaning. -/
inductive Refusal where
  /-- The instruction has no meaning in the model yet. No arm raises it: all twenty-nine instructions are modelled.
  Safe: the model stops where the hardware goes on. -/
  | notModelled (mnemonic : String)
deriving DecidableEq, Repr

/-- The machine right after reset with a memory that the reset did not clear (70_reset_and_hazards.md R211;
93_implementation_defined.md U17): every other item as the spec states it. -/
def State.resetWithMemory (m : Memory) : State where
  belt := #v[0, 0, 0, 0, 0, 0, 0, 0, 0, 0, 0, 0, 0, 0, 0, 0]
  mem := m
  pc := 0x0000#16
  sp := 0xFFFF#16

/-- The machine right after reset (70_reset_and_hazards.md R210; 10_state.md R33 to R36): belt, memory and pc zero,
sp 0xFFFF. -/
def State.reset : State := State.resetWithMemory []

end Sys2Proof.Machine
end

