-- ==== Sys2Proof/Machine/Ops.lean ====
section
/-! DEFINITION. The named operations over memory, belt, pc and sp (10_state.md R22 to R27, 20_memory.md R43 to R48). -/

namespace Sys2Proof.Machine

/-! ### Memory -/

/-- The word the list holds for an address, or what an unlisted address reads as. -/
def Memory.lookup (key : Nat) : Memory → Word
  | [] => Memory.unlisted
  | (a, v) :: rest => if a = key then v else Memory.lookup key rest

/-- The list with the word at `key` set to `v`, in canonical form: the entry is dropped when `v` is what an unlisted
address reads as. -/
def Memory.insert (key : Nat) (v : Word) : Memory → Memory
  | [] => if v = Memory.unlisted then [] else [(key, v)]
  | (a, w) :: rest =>
    if key < a then
      (if v = Memory.unlisted then (a, w) :: rest else (key, v) :: (a, w) :: rest)
    else if key = a then
      (if v = Memory.unlisted then rest else (key, v) :: rest)
    else (a, w) :: Memory.insert key v rest

/-- `MemRead(a, 1)` (20_memory.md R43). -/
def Memory.read (m : Memory) (a : Word) : Word := Memory.lookup a.toNat m

/-- `MemWrite(a, 1, v)` (20_memory.md R43). -/
def Memory.write (m : Memory) (a v : Word) : Memory := Memory.insert a.toNat v m

/-! ### Belt -/

/-- `peek(i)`: the value pushed `i` pushes ago; the index wraps modulo 16 (10_state.md R22, R24). -/
def Belt.peek (b : Belt) (i : Nat) : Word := b[i % 16]'(Nat.mod_lt _ (by decide))

/-- `push(v)`: `v` becomes position 0, every value moves one position back, the oldest is lost (10_state.md R23). -/
def Belt.push (b : Belt) (v : Word) : Belt :=
  #v[v, b.peek 0, b.peek 1, b.peek 2, b.peek 3, b.peek 4, b.peek 5, b.peek 6, b.peek 7, b.peek 8, b.peek 9,
    b.peek 10, b.peek 11, b.peek 12, b.peek 13, b.peek 14]

/-- The belt `[f 0, ..., f 15]` (10_state.md R27). -/
def Belt.tabulate (f : Nat → Word) : Belt :=
  #v[f 0, f 1, f 2, f 3, f 4, f 5, f 6, f 7, f 8, f 9, f 10, f 11, f 12, f 13, f 14, f 15]

/-! ### Updates of the state, one per item of 10_state.md R20 -/

def State.setBelt (s : State) (b : Belt) : State := { s with belt := b }

def State.setMem (s : State) (m : Memory) : State := { s with mem := m }

def State.setPc (s : State) (a : Word) : State := { s with pc := a }

def State.setSp (s : State) (a : Word) : State := { s with sp := a }

/-- `b[i]` of the state (10_state.md R22). -/
def State.peek (s : State) (i : Nat) : Word := s.belt.peek i

/-- `push(v)` on the state's belt (10_state.md R23). -/
def State.push (s : State) (v : Word) : State := s.setBelt (s.belt.push v)

/-- `belt <- [f 0, ..., f 15]` (10_state.md R27). -/
def State.loadBelt (s : State) (f : Nat → Word) : State := s.setBelt (Belt.tabulate f)

/-- `MemRead(a, 1)` of the state's memory: no address faults and a read changes nothing (20_memory.md R43, R49, R54). -/
def State.memRead (s : State) (a : Word) : Word := s.mem.read a

/-- `MemWrite(a, 1, v)` on the state's memory (20_memory.md R43). -/
def State.memWrite (s : State) (a v : Word) : State := s.setMem (s.mem.write a v)

/-! ### Stack (20_memory.md R46 to R48) -/

/-- `StackPush(v)`: write at sp, then decrement, wrapping (20_memory.md R47). DESIGN CHOICE (log entry 9), unsafe: sp
wraps and nothing is checked (92_eei_decisions.md D9). -/
def State.stackPush (s : State) (v : Word) : State := (s.memWrite s.sp v).setSp (s.sp - 1)

/-- `StackPop()`: increment sp, wrapping, then read; the word stays in memory (20_memory.md R48). DESIGN CHOICE (log
entry 8), unsafe: the form of the pop is the spec's decision D8. -/
def State.stackPop (s : State) : Word × State := (s.memRead (s.sp + 1), s.setSp (s.sp + 1))

/-- `for i = n - 1 downto 0: StackPush(b[i])` (42_constant.md R123). -/
def State.spill (b : Belt) : Nat → State → State
  | 0, s => s
  | n + 1, s => State.spill b n (s.stackPush (b.peek n))

/-- `for k = 0 to n - 1: c[k] <- StackPop()`: the words popped, the first popped first (43_immediate.md R133). -/
def State.popMany : Nat → State → List Word × State
  | 0, s => ([], s)
  | n + 1, s =>
    let r := State.popMany n s.stackPop.2
    (s.stackPop.1 :: r.1, r.2)

/-- `for i = n - 1 downto 0: push(snap[i])` (43_immediate.md R133). -/
def State.repush (snap : Belt) : Nat → State → State
  | 0, s => s
  | n + 1, s => State.repush snap n (s.push (snap.peek n))

/-! ### Fetch -/

/-- Both words at `[pc, pc + 1]`, always both, the second address wrapping (20_memory.md R46, R55). -/
def State.fetch (s : State) : Word × Word := (s.memRead s.pc, s.memRead (s.pc + 1))

end Sys2Proof.Machine
end

