-- ==== Sys2Proof/Machine/Result.lean ====
section
/-! DEFINITION. The step result, what an instruction rule answers, the pc update, and the exceptional event
(40_codec_and_step.md R99 to R101; 60_exceptions.md R190). -/

namespace Sys2Proof.Machine

/-- The four values a step returns (40_codec_and_step.md R100). `cont` is the spec's `Continue`. -/
inductive StepResult where
  | cont
  | jump (dest : Word)
  | stop
  | fail
deriving DecidableEq, Repr

/-- RESULT_CODE, the bit pattern of a result on a hardware port (60_exceptions.md R193). DESIGN CHOICE (log entry 14),
safe: decision D15, on which no rule and no other definition depends. -/
def StepResult.code : StepResult → BitVec 2
  | .cont => 0
  | .jump _ => 1
  | .stop => 2
  | .fail => 3

/-- What `execute(instr)` answers: the result and the state, with pc still the address of the instruction
(40_codec_and_step.md R99, R102). -/
structure Executed where
  result : StepResult
  state : State
deriving DecidableEq, Repr

/-- `result <- Continue`. -/
def continues (s : State) : Executed := ⟨.cont, s⟩

/-- `result <- Jump{dest}`. -/
def jumps (dest : Word) (s : State) : Executed := ⟨.jump dest, s⟩

/-- The exceptional event: the step changes no state and reports `Stop` or `Fail`. Nothing is saved, no mode changes, pc
goes nowhere (60_exceptions.md R190, R200). There is no return from it to model (R201): a later step starts from the
same state (R196). -/
def raises (r : StepResult) (s : State) : Executed := ⟨r, s⟩

/-- The one update of pc, by result, `n` the words consumed (40_codec_and_step.md R99, R101). DESIGN CHOICE (log
entry 15), unsafe: Stop leaves pc at the Break word (92_eei_decisions.md D16). -/
def updatePc (n : Nat) (e : Executed) : Executed :=
  match e.result with
  | .cont => ⟨.cont, e.state.setPc (e.state.pc + BitVec.ofNat 16 n)⟩
  | .jump dest => ⟨.jump dest, e.state.setPc dest⟩
  | .stop => ⟨.stop, e.state⟩
  | .fail => ⟨.fail, e.state⟩

/-- The host's outcome of a result: Continue and Jump go on, Stop and Fail halt. DESIGN CHOICE (log entry 14), safe:
which of Continue and Jump it was, and the unchanged state of a halt, stand in `stepWithResult`. -/
def toOutcome (e : Executed) : Host.Outcome State Fault Refusal :=
  match e.result with
  | .cont => .next e.state
  | .jump _ => .next e.state
  | .stop => .fault .stop
  | .fail => .fault .fail

/-- An instruction of `n` words completed: its rule's answer, the pc update, the outcome. -/
def complete (n : Nat) (e : Executed) : Host.Outcome State Fault Refusal := toOutcome (updatePc n e)

end Sys2Proof.Machine
end

