-- ==== Sys2Proof/Machine/Operands.lean ====
section
/-! DEFINITION. The operand forms (30_encoding.md R62, R63, R73): a belt position read as a value, a belt position read
as a memory address, the zero-extended immediate; and the shapes of instruction they serve. The 16-bit constant and the
absolute address are used as they stand and need no definition. -/

namespace Sys2Proof.Machine

/-- `b[pos]` for a 4-bit belt position, read before the instruction pushes (10_state.md R22). -/
def State.beltAt (s : State) (pos : BeltPos) : Word := s.peek pos.toNat

/-- The memory word a belt position addresses: `MemRead(b[pos], 1)` (46_unary.md R171). -/
def State.memAt (s : State) (pos : BeltPos) : Word := s.memRead (s.beltAt pos)

/-- `imm = zext_16(w0[3:0])`, a value 0..15 (30_encoding.md R73). -/
def immediate (imm : Imm4) : Nat := imm.toNat

/-- Push one value and continue: the end of every instruction that computes a value (10_state.md R28). -/
def pushes (v : Word) (s : State) : Executed := continues (s.push v)

/-- Two belt positions combined, the value pushed; `b[pos1]` is the left operand (44_register.md R140). DESIGN CHOICE
(log entry 4), unsafe: the operand order is the spec's decision D4. -/
def pushesBinary (f : Word → Word → Word) (pos1 pos2 : BeltPos) (s : State) : Executed :=
  pushes (f (s.beltAt pos1) (s.beltAt pos2)) s

/-- Jump to `addr` if the comparison of two belt positions holds, else continue (45_branch.md R160). -/
def branches (test : Word → Word → Bool) (pos1 pos2 : BeltPos) (addr : Word) (s : State) : Executed :=
  match test (s.beltAt pos1) (s.beltAt pos2) with
  | true => jumps addr s
  | false => continues s

end Sys2Proof.Machine
end

