-- ==== Sys2Proof/Machine/BeltConstant.lean ====
section
/-! DEFINITION. Class 1, BeltConstant (41_belt_constant.md). For each instruction its rule, which leaves pc alone
(40_codec_and_step.md R102), and its meaning, the rule with the pc update. -/

namespace Sys2Proof.Machine

/-- Push `b[pos]` combined with the constant as it stands (41_belt_constant.md R110). -/
def pushesWithConstant (f : Word → Word → Word) (pos : BeltPos) (const : Word) (s : State) : Executed :=
  pushes (f (s.beltAt pos) const) s

/-- 41_belt_constant.md R111. -/
def ruleBeltConstantAnd (pos : BeltPos) (const : Word) (s : State) : Executed :=
  pushesWithConstant andWords pos const s

/-- 41_belt_constant.md R112. -/
def ruleBeltConstantOr (pos : BeltPos) (const : Word) (s : State) : Executed :=
  pushesWithConstant orWords pos const s

/-- 41_belt_constant.md R113. -/
def ruleBeltConstantXor (pos : BeltPos) (const : Word) (s : State) : Executed :=
  pushesWithConstant xorWords pos const s

def execBeltConstantAnd (pos : BeltPos) (const : Word) (s : State) : Host.Outcome State Fault Refusal :=
  complete OpClass.beltConstant.words (ruleBeltConstantAnd pos const s)

def execBeltConstantOr (pos : BeltPos) (const : Word) (s : State) : Host.Outcome State Fault Refusal :=
  complete OpClass.beltConstant.words (ruleBeltConstantOr pos const s)

def execBeltConstantXor (pos : BeltPos) (const : Word) (s : State) : Host.Outcome State Fault Refusal :=
  complete OpClass.beltConstant.words (ruleBeltConstantXor pos const s)

end Sys2Proof.Machine
end

