-- ==== Sys2Proof/Machine/Flags.lean ====
section
/-! DEFINITION. The machine has no flags (10_state.md R32): a comparison's result lives only inside the branch that makes
it (45_branch.md R160). This file holds those comparisons. -/

namespace Sys2Proof.Machine

/-- `x < y` under a reading of the words (45_branch.md R161, 92_eei_decisions.md D3). -/
def ltWordsWith (sg : Signedness) (x y : Word) : Bool :=
  match sg with
  | .unsigned => x.ult y
  | .signed => x.slt y

/-- `x <= y` under a reading of the words (45_branch.md R162, 92_eei_decisions.md D3). -/
def leWordsWith (sg : Signedness) (x y : Word) : Bool :=
  match sg with
  | .unsigned => x.ule y
  | .signed => x.sle y

/-- `x < y`, unsigned (45_branch.md R161; log entry 3). -/
def ltWords (x y : Word) : Bool := ltWordsWith signedness x y

/-- `x <= y`, unsigned (45_branch.md R162; log entry 3). -/
def leWords (x y : Word) : Bool := leWordsWith signedness x y

/-- `x = y`, all sixteen bits (45_branch.md R163). -/
def eqWords (x y : Word) : Bool := x == y

end Sys2Proof.Machine
end

