-- ==== Sys2Proof/Machine/Branch.lean ====
section
/-! DEFINITION. Class 5, Branch (45_branch.md). -/

namespace Sys2Proof.Machine

/-- 45_branch.md R161. -/
def ruleBranchLt (pos1 pos2 : BeltPos) (addr : Word) (s : State) : Executed := branches ltWords pos1 pos2 addr s

/-- 45_branch.md R162. -/
def ruleBranchLe (pos1 pos2 : BeltPos) (addr : Word) (s : State) : Executed := branches leWords pos1 pos2 addr s

/-- 45_branch.md R163. -/
def ruleBranchEq (pos1 pos2 : BeltPos) (addr : Word) (s : State) : Executed := branches eqWords pos1 pos2 addr s

def execBranchLt (pos1 pos2 : BeltPos) (addr : Word) (s : State) : Host.Outcome State Fault Refusal :=
  complete OpClass.branch.words (ruleBranchLt pos1 pos2 addr s)

def execBranchLe (pos1 pos2 : BeltPos) (addr : Word) (s : State) : Host.Outcome State Fault Refusal :=
  complete OpClass.branch.words (ruleBranchLe pos1 pos2 addr s)

def execBranchEq (pos1 pos2 : BeltPos) (addr : Word) (s : State) : Host.Outcome State Fault Refusal :=
  complete OpClass.branch.words (ruleBranchEq pos1 pos2 addr s)

end Sys2Proof.Machine
end

