-- ==== Sys2Proof/Machine/Constant.lean ====
section
/-! DEFINITION. Class 2, Constant (42_constant.md). -/

namespace Sys2Proof.Machine

/-- 42_constant.md R121. -/
def ruleConstantLoadFromMemory (const : Word) (s : State) : Executed := pushes (s.memRead const) s

/-- 42_constant.md R122. -/
def ruleConstantLoadConstant (const : Word) (s : State) : Executed := pushes const s

/-- The return address Call pushes first, if CALL_LINK says so: the address of the instruction after it
(42_constant.md R123). -/
def linkPush (link : CallLink) (s : State) : State :=
  match link with
  | .noLink => s
  | .pushNextPc => s.stackPush (s.pc + 2)

/-- 42_constant.md R123 under either value of CALL_LINK: the link, then `b[15]` first and `b[0]` last, then the jump. The
belt itself is not changed. -/
def ruleConstantCallWith (link : CallLink) (const : Word) (s : State) : Executed :=
  jumps const (State.spill s.belt 16 (linkPush link s))

/-- 42_constant.md R123. DESIGN CHOICE (log entry 5), unsafe: CALL_LINK has its default. -/
def ruleConstantCall (const : Word) (s : State) : Executed := ruleConstantCallWith callLink const s

/-- 42_constant.md R124. -/
def ruleConstantJump (const : Word) (s : State) : Executed := jumps const s

def execConstantLoadFromMemory (const : Word) (s : State) : Host.Outcome State Fault Refusal :=
  complete OpClass.constant.words (ruleConstantLoadFromMemory const s)

def execConstantLoadConstant (const : Word) (s : State) : Host.Outcome State Fault Refusal :=
  complete OpClass.constant.words (ruleConstantLoadConstant const s)

def execConstantCall (const : Word) (s : State) : Host.Outcome State Fault Refusal :=
  complete OpClass.constant.words (ruleConstantCall const s)

def execConstantJump (const : Word) (s : State) : Host.Outcome State Fault Refusal :=
  complete OpClass.constant.words (ruleConstantJump const s)

end Sys2Proof.Machine
end

