-- ==== Sys2Proof/Machine/Immediate.lean ====
section
/-! DEFINITION. Class 3, Immediate (43_immediate.md). -/

namespace Sys2Proof.Machine

/-- 43_immediate.md R131. -/
def ruleImmediateShiftLeft (pos : BeltPos) (imm : Imm4) (s : State) : Executed :=
  pushes (shiftLeftBy (s.beltAt pos) (immediate imm)) s

/-- 43_immediate.md R132. -/
def ruleImmediateShiftRight (pos : BeltPos) (imm : Imm4) (s : State) : Executed :=
  pushes (shiftRightBy (s.beltAt pos) (immediate imm)) s

/-- 43_immediate.md R133 for a count of `n` return values: restore the caller's belt from the stack, push the callee's
`n` newest values again, jump to the seventeenth word. DESIGN CHOICE (log entry 6), unsafe: the data movement is the
spec's decision D6. -/
def returnWith (n : Nat) (s : State) : Executed :=
  let popped := State.popMany 16 s
  let restored := popped.2.loadBelt (fun k => popped.1.getD k 0)
  let pushed := State.repush s.belt n restored
  jumps pushed.stackPop.1 pushed.stackPop.2

/-- 43_immediate.md R133. DESIGN CHOICE (log entry 7), unsafe: the position is carried by the codec and ignored here
(92_eei_decisions.md D7). -/
def ruleImmediateRet (_pos : BeltPos) (imm : Imm4) (s : State) : Executed := returnWith (immediate imm) s

def execImmediateShiftLeft (pos : BeltPos) (imm : Imm4) (s : State) : Host.Outcome State Fault Refusal :=
  complete OpClass.immediate.words (ruleImmediateShiftLeft pos imm s)

def execImmediateShiftRight (pos : BeltPos) (imm : Imm4) (s : State) : Host.Outcome State Fault Refusal :=
  complete OpClass.immediate.words (ruleImmediateShiftRight pos imm s)

def execImmediateRet (pos : BeltPos) (imm : Imm4) (s : State) : Host.Outcome State Fault Refusal :=
  complete OpClass.immediate.words (ruleImmediateRet pos imm s)

end Sys2Proof.Machine
end

