-- ==== Sys2Proof/Machine/Register.lean ====
section
/-! DEFINITION. Class 4, Register (44_register.md). DESIGN CHOICE (log entry 2), unsafe: Sub, Mul, And, Or, Xor and the
two shifts are the spec's default of REG_OPS (92_eei_decisions.md D1). -/

namespace Sys2Proof.Machine

/-- 44_register.md R141. -/
def ruleRegisterAdd (pos1 pos2 : BeltPos) (s : State) : Executed := pushesBinary addWords pos1 pos2 s

/-- 44_register.md R142. -/
def ruleRegisterSub (pos1 pos2 : BeltPos) (s : State) : Executed := pushesBinary subWords pos1 pos2 s

/-- 44_register.md R143. -/
def ruleRegisterMul (pos1 pos2 : BeltPos) (s : State) : Executed := pushesBinary mulWords pos1 pos2 s

/-- 44_register.md R144: `Fail` exactly when the divisor `b[pos2]` is zero, and then nothing changes. -/
def ruleRegisterDiv (pos1 pos2 : BeltPos) (s : State) : Executed :=
  if s.beltAt pos2 = 0 then raises .fail s else pushesBinary divWords pos1 pos2 s

/-- 44_register.md R145. -/
def ruleRegisterAnd (pos1 pos2 : BeltPos) (s : State) : Executed := pushesBinary andWords pos1 pos2 s

/-- 44_register.md R146. -/
def ruleRegisterOr (pos1 pos2 : BeltPos) (s : State) : Executed := pushesBinary orWords pos1 pos2 s

/-- 44_register.md R147. -/
def ruleRegisterXor (pos1 pos2 : BeltPos) (s : State) : Executed := pushesBinary xorWords pos1 pos2 s

/-- 44_register.md R148. -/
def ruleRegisterShiftLeft (pos1 pos2 : BeltPos) (s : State) : Executed := pushesBinary shiftLeftWords pos1 pos2 s

/-- 44_register.md R149. -/
def ruleRegisterShiftRight (pos1 pos2 : BeltPos) (s : State) : Executed := pushesBinary shiftRightWords pos1 pos2 s

/-- 44_register.md R150: `M[b[pos2]] <- b[pos1]`; nothing is pushed. -/
def ruleRegisterSave (pos1 pos2 : BeltPos) (s : State) : Executed :=
  continues (s.memWrite (s.beltAt pos2) (s.beltAt pos1))

def execRegisterAdd (pos1 pos2 : BeltPos) (s : State) : Host.Outcome State Fault Refusal :=
  complete OpClass.register.words (ruleRegisterAdd pos1 pos2 s)

def execRegisterSub (pos1 pos2 : BeltPos) (s : State) : Host.Outcome State Fault Refusal :=
  complete OpClass.register.words (ruleRegisterSub pos1 pos2 s)

def execRegisterMul (pos1 pos2 : BeltPos) (s : State) : Host.Outcome State Fault Refusal :=
  complete OpClass.register.words (ruleRegisterMul pos1 pos2 s)

def execRegisterDiv (pos1 pos2 : BeltPos) (s : State) : Host.Outcome State Fault Refusal :=
  complete OpClass.register.words (ruleRegisterDiv pos1 pos2 s)

def execRegisterAnd (pos1 pos2 : BeltPos) (s : State) : Host.Outcome State Fault Refusal :=
  complete OpClass.register.words (ruleRegisterAnd pos1 pos2 s)

def execRegisterOr (pos1 pos2 : BeltPos) (s : State) : Host.Outcome State Fault Refusal :=
  complete OpClass.register.words (ruleRegisterOr pos1 pos2 s)

def execRegisterXor (pos1 pos2 : BeltPos) (s : State) : Host.Outcome State Fault Refusal :=
  complete OpClass.register.words (ruleRegisterXor pos1 pos2 s)

def execRegisterShiftLeft (pos1 pos2 : BeltPos) (s : State) : Host.Outcome State Fault Refusal :=
  complete OpClass.register.words (ruleRegisterShiftLeft pos1 pos2 s)

def execRegisterShiftRight (pos1 pos2 : BeltPos) (s : State) : Host.Outcome State Fault Refusal :=
  complete OpClass.register.words (ruleRegisterShiftRight pos1 pos2 s)

def execRegisterSave (pos1 pos2 : BeltPos) (s : State) : Host.Outcome State Fault Refusal :=
  complete OpClass.register.words (ruleRegisterSave pos1 pos2 s)

end Sys2Proof.Machine
end

