-- ==== Sys2Proof/Machine/Unary.lean ====
section
/-! DEFINITION. Class 6, Unary (46_unary.md). -/

namespace Sys2Proof.Machine

/-- 46_unary.md R171. -/
def ruleUnaryLoad (pos : BeltPos) (s : State) : Executed := pushes (s.memAt pos) s

/-- 46_unary.md R172. -/
def ruleUnaryJump (pos : BeltPos) (s : State) : Executed := jumps (s.beltAt pos) s

/-- 46_unary.md R173: a copy, the belt is unchanged (90_conflicts.md C7). -/
def ruleUnaryPush (pos : BeltPos) (s : State) : Executed := continues (s.stackPush (s.beltAt pos))

def execUnaryLoad (pos : BeltPos) (s : State) : Host.Outcome State Fault Refusal :=
  complete OpClass.unary.words (ruleUnaryLoad pos s)

def execUnaryJump (pos : BeltPos) (s : State) : Host.Outcome State Fault Refusal :=
  complete OpClass.unary.words (ruleUnaryJump pos s)

def execUnaryPush (pos : BeltPos) (s : State) : Host.Outcome State Fault Refusal :=
  complete OpClass.unary.words (ruleUnaryPush pos s)

end Sys2Proof.Machine
end

