-- ==== Sys2Proof/Machine/Zero.lean ====
section
/-! DEFINITION. Class 7, Zero (47_zero.md). -/

namespace Sys2Proof.Machine

/-- 47_zero.md R181. -/
def ruleZeroNop (s : State) : Executed := continues s

/-- 47_zero.md R182: pop the stack, push the word on the belt. -/
def ruleZeroPop (s : State) : Executed := pushes s.stackPop.1 s.stackPop.2

/-- 47_zero.md R183: a halt, not a breakpoint trap. -/
def ruleZeroBreak (s : State) : Executed := raises .stop s

def execZeroNop (s : State) : Host.Outcome State Fault Refusal :=
  complete OpClass.zero.words (ruleZeroNop s)

def execZeroPop (s : State) : Host.Outcome State Fault Refusal :=
  complete OpClass.zero.words (ruleZeroPop s)

def execZeroBreak (s : State) : Host.Outcome State Fault Refusal :=
  complete OpClass.zero.words (ruleZeroBreak s)

end Sys2Proof.Machine
end

