-- ==== Sys2Proof/Machine/Dispatch.lean ====
section
/-! DEFINITION. The dispatch of all twenty-nine instructions to their meanings (40_codec_and_step.md R102). -/

namespace Sys2Proof.Machine

def exec (i : Instr) (s : State) : Host.Outcome State Fault Refusal :=
  match i with
  | .beltConstantAnd pos const => Sys2Proof.Machine.execBeltConstantAnd pos const s
  | .beltConstantOr pos const => Sys2Proof.Machine.execBeltConstantOr pos const s
  | .beltConstantXor pos const => Sys2Proof.Machine.execBeltConstantXor pos const s
  | .constantLoadFromMemory const => Sys2Proof.Machine.execConstantLoadFromMemory const s
  | .constantLoadConstant const => Sys2Proof.Machine.execConstantLoadConstant const s
  | .constantCall const => Sys2Proof.Machine.execConstantCall const s
  | .constantJump const => Sys2Proof.Machine.execConstantJump const s
  | .immediateShiftLeft pos imm => Sys2Proof.Machine.execImmediateShiftLeft pos imm s
  | .immediateShiftRight pos imm => Sys2Proof.Machine.execImmediateShiftRight pos imm s
  | .immediateRet pos imm => Sys2Proof.Machine.execImmediateRet pos imm s
  | .registerAdd pos1 pos2 => Sys2Proof.Machine.execRegisterAdd pos1 pos2 s
  | .registerSub pos1 pos2 => Sys2Proof.Machine.execRegisterSub pos1 pos2 s
  | .registerMul pos1 pos2 => Sys2Proof.Machine.execRegisterMul pos1 pos2 s
  | .registerDiv pos1 pos2 => Sys2Proof.Machine.execRegisterDiv pos1 pos2 s
  | .registerAnd pos1 pos2 => Sys2Proof.Machine.execRegisterAnd pos1 pos2 s
  | .registerOr pos1 pos2 => Sys2Proof.Machine.execRegisterOr pos1 pos2 s
  | .registerXor pos1 pos2 => Sys2Proof.Machine.execRegisterXor pos1 pos2 s
  | .registerShiftLeft pos1 pos2 => Sys2Proof.Machine.execRegisterShiftLeft pos1 pos2 s
  | .registerShiftRight pos1 pos2 => Sys2Proof.Machine.execRegisterShiftRight pos1 pos2 s
  | .registerSave pos1 pos2 => Sys2Proof.Machine.execRegisterSave pos1 pos2 s
  | .branchLt pos1 pos2 addr => Sys2Proof.Machine.execBranchLt pos1 pos2 addr s
  | .branchLe pos1 pos2 addr => Sys2Proof.Machine.execBranchLe pos1 pos2 addr s
  | .branchEq pos1 pos2 addr => Sys2Proof.Machine.execBranchEq pos1 pos2 addr s
  | .unaryLoad pos => Sys2Proof.Machine.execUnaryLoad pos s
  | .unaryJump pos => Sys2Proof.Machine.execUnaryJump pos s
  | .unaryPush pos => Sys2Proof.Machine.execUnaryPush pos s
  | .zeroNop => Sys2Proof.Machine.execZeroNop s
  | .zeroPop => Sys2Proof.Machine.execZeroPop s
  | .zeroBreak => Sys2Proof.Machine.execZeroBreak s

end Sys2Proof.Machine
end

