-- ==== Sys2Proof/Machine/Execute.lean ====
section
/-! DEFINITION. `execute(instr)` in the spec's own shape: the result and the state before the pc update
(40_codec_and_step.md R102), and the step that returns its result (R99). -/

namespace Sys2Proof.Machine

/-- `execute(instr)`: exactly one instruction rule, which never changes pc (40_codec_and_step.md R102). -/
def execute (i : Instr) (s : State) : Executed :=
  match i with
  | .beltConstantAnd pos const => ruleBeltConstantAnd pos const s
  | .beltConstantOr pos const => ruleBeltConstantOr pos const s
  | .beltConstantXor pos const => ruleBeltConstantXor pos const s
  | .constantLoadFromMemory const => ruleConstantLoadFromMemory const s
  | .constantLoadConstant const => ruleConstantLoadConstant const s
  | .constantCall const => ruleConstantCall const s
  | .constantJump const => ruleConstantJump const s
  | .immediateShiftLeft pos imm => ruleImmediateShiftLeft pos imm s
  | .immediateShiftRight pos imm => ruleImmediateShiftRight pos imm s
  | .immediateRet pos imm => ruleImmediateRet pos imm s
  | .registerAdd pos1 pos2 => ruleRegisterAdd pos1 pos2 s
  | .registerSub pos1 pos2 => ruleRegisterSub pos1 pos2 s
  | .registerMul pos1 pos2 => ruleRegisterMul pos1 pos2 s
  | .registerDiv pos1 pos2 => ruleRegisterDiv pos1 pos2 s
  | .registerAnd pos1 pos2 => ruleRegisterAnd pos1 pos2 s
  | .registerOr pos1 pos2 => ruleRegisterOr pos1 pos2 s
  | .registerXor pos1 pos2 => ruleRegisterXor pos1 pos2 s
  | .registerShiftLeft pos1 pos2 => ruleRegisterShiftLeft pos1 pos2 s
  | .registerShiftRight pos1 pos2 => ruleRegisterShiftRight pos1 pos2 s
  | .registerSave pos1 pos2 => ruleRegisterSave pos1 pos2 s
  | .branchLt pos1 pos2 addr => ruleBranchLt pos1 pos2 addr s
  | .branchLe pos1 pos2 addr => ruleBranchLe pos1 pos2 addr s
  | .branchEq pos1 pos2 addr => ruleBranchEq pos1 pos2 addr s
  | .unaryLoad pos => ruleUnaryLoad pos s
  | .unaryJump pos => ruleUnaryJump pos s
  | .unaryPush pos => ruleUnaryPush pos s
  | .zeroNop => ruleZeroNop s
  | .zeroPop => ruleZeroPop s
  | .zeroBreak => ruleZeroBreak s

/-- `step()` with the result it returns to its caller (40_codec_and_step.md R99): the state of a `Stop` or a `Fail` is the
state before the step (R98, R101). The result is an output, stored nowhere (10_state.md R38). -/
def stepWithResult (s : State) : Executed :=
  match decode s.fetch.1 s.fetch.2 with
  | none => raises .stop s
  | some (i, n) => updatePc n (execute i s)

/-- `k` calls of `step()` and the results they return, the first first. No run loop is part of the core; the driver may
step on after a halt (40_codec_and_step.md R104, 60_exceptions.md R196). -/
def stepsWithResults : Nat → State → List StepResult × State
  | 0, s => ([], s)
  | k + 1, s =>
    let e := stepWithResult s
    let r := stepsWithResults k e.state
    (e.result :: r.1, r.2)

end Sys2Proof.Machine
end

