-- ==== Sys2Proof/Machine/Step.lean ====
section
/-! DEFINITION. One step: fetch two words, decode, execute one instruction (40_codec_and_step.md R99). -/

namespace Sys2Proof.Machine

/-- One step. A word that does not decode is `Stop` (40_codec_and_step.md R98); every other step is the instruction's
meaning, which updates pc itself. -/
def step (s : State) : Host.Outcome State Fault Refusal :=
  match decode s.fetch.1 s.fetch.2 with
  | none => .fault .stop
  | some (i, _) => exec i s

/-- The state with an instruction's two words stored at `[pc, pc + 1]`, where the next step fetches (log entry 19). -/
def State.withFetchWord (s : State) (nbits w : Nat) : State :=
  (s.memWrite s.pc (tableWords nbits w).1).memWrite (s.pc + 1) (tableWords nbits w).2

end Sys2Proof.Machine
end

