-- ==== Sys2Proof/Machine/HostPort.lean ====
section
/-! DEFINITION. What the host does between steps (10_state.md R37, R39; 70_reset_and_hazards.md R212 to R214). None of it
is an effect of an instruction. -/

namespace Sys2Proof.Machine

/-- Write the words from address `a` upward, wrapping. -/
def State.loadWordsAt (s : State) (a : Word) : List Word → State
  | [] => s
  | w :: rest => (s.memWrite a w).loadWordsAt (a + 1) rest

/-- Load a program "by writing encoded words into `memory` starting at address 0" (70_reset_and_hazards.md R213). -/
def State.loadProgram (s : State) (words : List Word) : State := s.loadWordsAt 0 words

/-- The words of a program, instruction after instruction (40_codec_and_step.md R96). -/
def programWords (program : List Instr) : List Word := program.flatMap encodeWords

/-- Construction from an explicit snapshot: element `i` of the belt array is position `i`, element `a` of the memory array
is the word at address `a` (10_state.md R37). DESIGN CHOICE (log entry 13), safe: decision D13. The memory array is
written over the all-zero memory of reset; its elements past 65,536 would wrap and a snapshot has none. -/
def State.ofSnapshot (belt : Belt) (memory : List Word) (pc sp : Word) : State :=
  (((State.reset.loadProgram memory).setBelt belt).setPc pc).setSp sp

end Sys2Proof.Machine
end

