-- ==== Sys2Proof/Machine/Ring.lean ====
section
/-! DEFINITION. The belt's physical form, a ring buffer (10_state.md R25). It is not architectural and no part of State:
it stands here so that it can be checked against the logical belt. -/

namespace Sys2Proof.Machine

/-- The array `A[0..15]` and the head index `start` (10_state.md R25). -/
structure Ring where
  slots : Vector Word 16
  start : Fin 16
deriving DecidableEq, Repr

/-- `A[(start + i) mod 16]` (10_state.md R25). -/
def Ring.peek (r : Ring) (i : Nat) : Word := r.slots[(r.start.val + i) % 16]'(Nat.mod_lt _ (by decide))

/-- `start <- (start + 15) mod 16 ; A[start] <- v` (10_state.md R25). -/
def Ring.push (r : Ring) (v : Word) : Ring where
  slots := r.slots.set ((r.start.val + 15) % 16) v (Nat.mod_lt _ (by decide))
  start := ⟨(r.start.val + 15) % 16, Nat.mod_lt _ (by decide)⟩

/-- The logical belt of a ring: `b[i] = A[(start + i) mod 16]` (10_state.md R25). -/
def Ring.logical (r : Ring) : Belt := Belt.tabulate r.peek

/-- The ring after reset (10_state.md R35). DESIGN CHOICE (log entry 13), safe: `start` is 0 (92_eei_decisions.md D13). -/
def Ring.reset : Ring := ⟨#v[0, 0, 0, 0, 0, 0, 0, 0, 0, 0, 0, 0, 0, 0, 0, 0], 0⟩

end Sys2Proof.Machine
end

