-- ==== Sys2Proof/Safety.lean ====
section
/-! DEFINITION. What counts as a safe step and a safe run. The driver reports "completed" for Stop and "crashed" for Fail
(60_exceptions.md R201), so a run is safe that never fails and is never refused. -/

namespace Sys2Proof.Machine

/-- Going on and the normal halt are safe; `Fail` and a refusal are not. -/
def safeOutcome : Host.Outcome State Fault Refusal → Bool
  | .next _ => true
  | .fault .stop => true
  | .fault .fail => false
  | .refused _ => false

/-- A step that does not crash. -/
abbrev SafeStep (s : State) : Prop := safeOutcome (step s) = true

/-- The first `k` steps from a state, as far as the machine goes on, do not crash. -/
def safeFor : Nat → State → Bool
  | 0, _ => true
  | k + 1, s =>
    match step s with
    | .next t => safeFor k t
    | .fault .stop => true
    | .fault .fail => false
    | .refused _ => false

end Sys2Proof.Machine
end

