-- ==== Sys2Proof/Certificates/Slice0/Obligations.lean ====
section
/-! DEFINITION. The statements for the provers. The vocabulary they share stands first, in the words of the spec: natural
numbers and `mod 2^16` where the spec computes over the integers (00_scope.md R8). -/

namespace Sys2Proof.Claims

open Sys2Proof.Machine

/-- Every belt position of `t` holds what it held in `s`. -/
def SameBelt (s t : State) : Prop := ∀ i : Nat, i < 16 → t.peek i = s.peek i

/-- Every word of memory of `t` reads as in `s`. -/
def SameMemory (s t : State) : Prop := ∀ a : Word, t.memRead a = s.memRead a

/-- The belt of `t` is the belt of `s` after one push: the value `v` in front, every other value one position back, the
oldest gone. -/
def Pushed (s t : State) (v : Word) : Prop := t.peek 0 = v ∧ ∀ i : Nat, i < 15 → t.peek (i + 1) = s.peek i

/-- `pc <- trunc16(pc + n)`. -/
def Advanced (n : Nat) (s t : State) : Prop := t.pc.toNat = (s.pc.toNat + n) % 65536

/-- The instruction completes with Continue: one value, `v` as a number, is pushed, pc moves past its `n` words, and no
word of memory and not sp changes. -/
def PushesAndContinues (i : Instr) (s : State) (n v : Nat) : Prop :=
  (execute i s).result = .cont ∧
  ∃ t : State, exec i s = .next t ∧ (t.peek 0).toNat = v ∧ (∀ k : Nat, k < 15 → t.peek (k + 1) = s.peek k) ∧
    SameMemory s t ∧ t.sp = s.sp ∧ Advanced n s t

/-- The instruction completes with Jump to `dest`; belt, memory and sp are as before. -/
def OnlyJumps (i : Instr) (s : State) (dest : Word) : Prop :=
  (execute i s).result = .jump dest ∧
  ∃ t : State, exec i s = .next t ∧ t.pc = dest ∧ SameBelt s t ∧ SameMemory s t ∧ t.sp = s.sp

/-- The instruction completes with Continue past its `n` words; belt, memory and sp are as before. -/
def OnlyContinues (i : Instr) (s : State) (n : Nat) : Prop :=
  (execute i s).result = .cont ∧
  ∃ t : State, exec i s = .next t ∧ Advanced n s t ∧ SameBelt s t ∧ SameMemory s t ∧ t.sp = s.sp

/-- Where the spill of Call puts belt position `i`: `trunc16(s - (15 - i))` for an sp of `s` (42_constant.md R123). -/
def spillAddress (sp : Word) (i : Nat) : Word := sp - BitVec.ofNat 16 (15 - i)

/-- The addresses an instruction stores to (20_memory.md R56, CALL_LINK at its default). -/
def storedTo (i : Instr) (s : State) : List Word :=
  match i with
  | .beltConstantAnd _ _ => []
  | .beltConstantOr _ _ => []
  | .beltConstantXor _ _ => []
  | .constantLoadFromMemory _ => []
  | .constantLoadConstant _ => []
  | .constantCall _ => (List.range 16).map (spillAddress s.sp)
  | .constantJump _ => []
  | .immediateShiftLeft _ _ => []
  | .immediateShiftRight _ _ => []
  | .immediateRet _ _ => []
  | .registerAdd _ _ => []
  | .registerSub _ _ => []
  | .registerMul _ _ => []
  | .registerDiv _ _ => []
  | .registerAnd _ _ => []
  | .registerOr _ _ => []
  | .registerXor _ _ => []
  | .registerShiftLeft _ _ => []
  | .registerShiftRight _ _ => []
  | .registerSave _ pos2 => [s.beltAt pos2]
  | .branchLt _ _ _ => []
  | .branchLe _ _ _ => []
  | .branchEq _ _ _ => []
  | .unaryLoad _ => []
  | .unaryJump _ => []
  | .unaryPush _ => [s.sp]
  | .zeroNop => []
  | .zeroPop => []
  | .zeroBreak => []

/-- Where an instruction leaves sp (10_state.md R30, CALL_LINK at its default). -/
def spAfter (i : Instr) (s : State) : Word :=
  match i with
  | .beltConstantAnd _ _ => s.sp
  | .beltConstantOr _ _ => s.sp
  | .beltConstantXor _ _ => s.sp
  | .constantLoadFromMemory _ => s.sp
  | .constantLoadConstant _ => s.sp
  | .constantCall _ => s.sp - 16
  | .constantJump _ => s.sp
  | .immediateShiftLeft _ _ => s.sp
  | .immediateShiftRight _ _ => s.sp
  | .immediateRet _ _ => s.sp + 17
  | .registerAdd _ _ => s.sp
  | .registerSub _ _ => s.sp
  | .registerMul _ _ => s.sp
  | .registerDiv _ _ => s.sp
  | .registerAnd _ _ => s.sp
  | .registerOr _ _ => s.sp
  | .registerXor _ _ => s.sp
  | .registerShiftLeft _ _ => s.sp
  | .registerShiftRight _ _ => s.sp
  | .registerSave _ _ => s.sp
  | .branchLt _ _ _ => s.sp
  | .branchLe _ _ _ => s.sp
  | .branchEq _ _ _ => s.sp
  | .unaryLoad _ => s.sp
  | .unaryJump _ => s.sp
  | .unaryPush _ => s.sp - 1
  | .zeroNop => s.sp
  | .zeroPop => s.sp + 1
  | .zeroBreak => s.sp

/-- The results an instruction can return (40_codec_and_step.md R103). -/
def MayReturn (i : Instr) (r : StepResult) : Prop :=
  match i with
  | .beltConstantAnd _ _ => r = .cont
  | .beltConstantOr _ _ => r = .cont
  | .beltConstantXor _ _ => r = .cont
  | .constantLoadFromMemory _ => r = .cont
  | .constantLoadConstant _ => r = .cont
  | .constantCall const => r = .jump const
  | .constantJump const => r = .jump const
  | .immediateShiftLeft _ _ => r = .cont
  | .immediateShiftRight _ _ => r = .cont
  | .immediateRet _ _ => ∃ dest, r = .jump dest
  | .registerAdd _ _ => r = .cont
  | .registerSub _ _ => r = .cont
  | .registerMul _ _ => r = .cont
  | .registerDiv _ _ => r = .cont ∨ r = .fail
  | .registerAnd _ _ => r = .cont
  | .registerOr _ _ => r = .cont
  | .registerXor _ _ => r = .cont
  | .registerShiftLeft _ _ => r = .cont
  | .registerShiftRight _ _ => r = .cont
  | .registerSave _ _ => r = .cont
  | .branchLt _ _ addr => r = .jump addr ∨ r = .cont
  | .branchLe _ _ addr => r = .jump addr ∨ r = .cont
  | .branchEq _ _ addr => r = .jump addr ∨ r = .cont
  | .unaryLoad _ => r = .cont
  | .unaryJump _ => ∃ dest, r = .jump dest
  | .unaryPush _ => r = .cont
  | .zeroNop => r = .cont
  | .zeroPop => r = .cont
  | .zeroBreak => r = .stop

/-- How many of the 65,536 first words decode with a given main opcode, under the default SUBOP_MAP. -/
def validCount (main : BitVec 4) : Nat :=
  (Finset.univ.filter (fun w : Word => mainField w = main ∧ decodeValid w 0 = true)).card

/-- A row of writes, the first first. -/
def writes (s : State) (ws : List (Word × Word)) : State := ws.foldl (fun u w => u.memWrite w.1 w.2) s

/-- A row of stack pushes, the first first. -/
def stackPushes (s : State) (vs : List Word) : State := vs.foldl State.stackPush s

end Sys2Proof.Claims

open Sys2Proof Sys2Proof.Machine Sys2Proof.Claims

/-! ### Reset -/

/-- R34, R36: pc is 0x0000 and sp 0xFFFF after reset, so the first fetch reads addresses 0 and 1; the stack grows downward;
everything but sp is zero: pc, every belt position, every word of memory (that a realisation clears its memory is D20,
log entry 18). -/
def Obligations.ResetHoldsTheStatedValues : Prop :=
  State.reset.pc = 0x0000#16 ∧ State.reset.sp = 0xFFFF#16 ∧
  State.reset.fetch = (State.reset.memRead 0x0000#16, State.reset.memRead 0x0001#16) ∧
  (∀ v : Word, (State.reset.stackPush v).sp.toNat + 1 = State.reset.sp.toNat) ∧
  (∀ i : Nat, State.reset.peek i = 0x0000#16) ∧ ∀ a : Word, State.reset.memRead a = 0x0000#16

/-- The model's own canonical form of memory (log entry 12) holds at reset. -/
def Obligations.ResetMemoryIsCanonical : Prop := State.reset.mem.wf = true

/-! ### Memory -/

/-- The model's own canonical form of memory (log entry 12) is kept by every step of every state that has it. -/
def Obligations.EveryStepKeepsMemoryCanonical : Prop :=
  ∀ s t : State, s.mem.wf = true → step s = .next t → t.mem.wf = true

/-- In the model's own canonical form (log entry 12) two memories that read the same at every address are the same data,
so that comparing states compares what the machine can read. -/
def Obligations.CanonicalMemoriesThatReadAlikeAreEqual : Prop :=
  ∀ m m' : Memory, m.wf = true → m'.wf = true → (∀ a : Word, m.read a = m'.read a) → m = m'

/-- R43: a write sets the one word at `a mod 2^16` and changes nothing else; a read returns that word; the fetch is two
such reads. -/
def Obligations.MemoryWriteSetsOneWordAndNothingElse : Prop :=
  ∀ (s : State) (a : Nat) (v : Word), s.mem.wf = true →
    (∀ c : Nat, (s.memWrite (BitVec.ofNat 16 a) v).memRead (BitVec.ofNat 16 c) =
      if c % 65536 = a % 65536 then v else s.memRead (BitVec.ofNat 16 c)) ∧
    (s.memWrite (BitVec.ofNat 16 a) v).belt = s.belt ∧ (s.memWrite (BitVec.ofNat 16 a) v).pc = s.pc ∧
    (s.memWrite (BitVec.ofNat 16 a) v).sp = s.sp ∧ s.fetch = (s.memRead s.pc, s.memRead (s.pc + 1))

/-- R49: after any row of writes a read returns the value of the latest write to its address, or what the address held before
if there was none, whatever the address; a read changes no state (it answers a word); the fetch reads both words. -/
def Obligations.ReadReturnsTheLatestWrite : Prop :=
  ∀ (s : State) (ws : List (Word × Word)), s.mem.wf = true →
    (∀ a : Word, (writes s ws).memRead a =
      match ws.reverse.find? (fun w => w.1 == a) with
      | some w => w.2
      | none => s.memRead a) ∧
    (writes s ws).fetch = ((writes s ws).memRead s.pc, (writes s ws).memRead (s.pc + 1))

/-- 20_memory.md section 2, StackPush: a stack push writes at sp, then decrements sp modulo 2^16 (that sp wraps and nothing
checks it is decision D9, log entry 9); nothing else changes; the word pushed last is at `trunc16(sp + 1)`; the first push
after reset writes M[0xFFFF] and leaves sp 0xFFFE. -/
def Obligations.StackPushWritesThenDecrements : Prop :=
  (∀ (s : State) (v : Word), s.mem.wf = true →
    (∀ a : Word, (s.stackPush v).memRead a = if a = s.sp then v else s.memRead a) ∧
    (s.stackPush v).sp.toNat = (s.sp.toNat + 65535) % 65536 ∧
    (s.stackPush v).memRead ((s.stackPush v).sp + 1) = v ∧
    SameBelt s (s.stackPush v) ∧ (s.stackPush v).pc = s.pc) ∧
  ∀ v : Word, (State.reset.stackPush v).memRead 0xFFFF#16 = v ∧ (State.reset.stackPush v).sp = 0xFFFE#16

/-- 20_memory.md section 2, StackPop (its form is the spec's decision D8, log entry 8; the wrap of sp is D9, log entry 9):
for any row of at most 65,536 pushes, as many pops return the words in reverse and bring sp back; no word of memory
changes in the pops, nor belt and pc. -/
def Obligations.PopsReturnPushedWordsInReverse : Prop :=
  ∀ (s : State) (vs : List Word), s.mem.wf = true → vs.length ≤ 65536 →
    (State.popMany vs.length (stackPushes s vs)).1 = vs.reverse ∧
    (State.popMany vs.length (stackPushes s vs)).2.sp = s.sp ∧
    SameMemory (stackPushes s vs) (State.popMany vs.length (stackPushes s vs)).2 ∧
    SameBelt s (State.popMany vs.length (stackPushes s vs)).2 ∧
    (State.popMany vs.length (stackPushes s vs)).2.pc = s.pc

/-! ### Belt -/

/-- 10_state.md section 2, belt push: what a push does; and it is the only way an instruction other than Ret changes the
belt, at most one push an instruction; Ret loads the whole belt and then pushes its `n` values (that these are the callee's
`n` newest, the oldest of them pushed first, is decision D6, log entry 6). -/
def Obligations.BeltChangesOnlyByPushes : Prop :=
  (∀ (s : State) (v : Word), Pushed s (s.push v) v) ∧
  ∀ (i : Instr) (s t : State), exec i s = .next t →
    (∃ (pos : BeltPos) (imm : Imm4), i = .immediateRet pos imm ∧
      ∃ c : Nat → Word, t.belt = ((List.range imm.toNat).reverse.map s.peek).foldl Belt.push (Belt.tabulate c)) ∨
    SameBelt s t ∨ ∃ v : Word, Pushed s t v

/-- 10_state.md section 2, the belt rotation law, with the spec's own inference from it for more than sixteen pushes: after
a row of pushes position `i` holds the value pushed `i` pushes ago, what was on the belt stands behind the
pushed values until it falls off, and the index wraps modulo 16. -/
def Obligations.BeltRotatesWithPushes : Prop :=
  ∀ (b : Belt) (vs : List Word),
    (∀ i : Nat, i < 16 → i < vs.length → (vs.foldl Belt.push b).peek i = vs.getD (vs.length - 1 - i) 0) ∧
    (∀ j : Nat, vs.length + j < 16 → (vs.foldl Belt.push b).peek (vs.length + j) = b.peek j) ∧
    ∀ i : Nat, (vs.foldl Belt.push b).peek (i + 16) = (vs.foldl Belt.push b).peek i

/-- 10_state.md section 2, the physical form: under `b[i] = A[(start + i) mod 16]` the ring's peek is the logical peek, any
row of ring pushes is the same row of logical pushes, and the reset ring (start 0: decision D13, log entry 13) is the
reset belt. -/
def Obligations.RingBufferRefinesTheBelt : Prop :=
  (∀ (r : Ring) (i : Nat), r.peek i = r.logical.peek i) ∧
  (∀ (vs : List Word) (r : Ring), (vs.foldl Ring.push r).logical = vs.foldl Belt.push r.logical) ∧
  Ring.reset.logical = State.reset.belt

/-! ### The instructions, class by class -/

/-- R110, class BeltConstant whole: the belt is read before the push, the constant is used as it stands, two words, always
Continue, no word of memory and not sp touched. -/
def Obligations.BeltConstantPushesCombination : Prop :=
  ∀ (pos : BeltPos) (const : Word) (s : State),
    PushesAndContinues (.beltConstantAnd pos const) s 2 ((s.peek pos.toNat).toNat &&& const.toNat) ∧
    PushesAndContinues (.beltConstantOr pos const) s 2 ((s.peek pos.toNat).toNat ||| const.toNat) ∧
    PushesAndContinues (.beltConstantXor pos const) s 2 ((s.peek pos.toNat).toNat ^^^ const.toNat)

/-- R120, class Constant whole: the loads continue past two words, Call and Jump go to the constant, and a first word with
a non-zero operand nibble does not decode. -/
def Obligations.ConstantClassLoadsAndJumps : Prop :=
  (∀ (const : Word) (s : State),
    PushesAndContinues (.constantLoadFromMemory const) s 2 (s.memRead const).toNat ∧
    PushesAndContinues (.constantLoadConstant const) s 2 const.toNat ∧
    OnlyJumps (.constantJump const) s const ∧
    (execute (.constantCall const) s).result = .jump const ∧
    ∃ t : State, exec (.constantCall const) s = .next t ∧ t.pc = const) ∧
  ∀ sub op1 op2 : BitVec 4, ∀ w1 : Word, op1 ≠ 0 ∨ op2 ≠ 0 → decode (firstWord 2 sub op1 op2) w1 = none

/-- 42_constant.md, Constant.Call with CALL_LINK at its default (decision D5, log entry 5; the wrap of sp is D9, log
entry 9): position `i` is stored at `trunc16(s - (15 - i))`, every other word of memory reads as before, sp goes down by
16, the belt is unchanged, pc is the constant. -/
def Obligations.CallSpillsTheBelt : Prop :=
  ∀ (const : Word) (s : State), s.mem.wf = true →
    ∃ t : State, exec (.constantCall const) s = .next t ∧
      (∀ i : Nat, i < 16 → t.memRead (spillAddress s.sp i) = s.peek i) ∧
      (∀ a : Word, (∀ i : Nat, i < 16 → a ≠ spillAddress s.sp i) → t.memRead a = s.memRead a) ∧
      t.sp.toNat = (s.sp.toNat + 65520) % 65536 ∧ SameBelt s t ∧ t.pc = const

/-- 42_constant.md, Constant.Call with CALL_LINK = push_next_pc, the alternative of decision D5 (log entry 5): the address
after the Call is stored first, so that the Ret that finds the stack as the Call left it returns behind the Call with sp
as before it (the wrap of sp is D9, log entry 9). The Call is the rule under that value of the parameter, not the default
machine's `exec`. -/
def Obligations.CallWithLinkReturnsBehindTheCall : Prop :=
  ∀ (const : Word) (s : State) (pos : BeltPos) (imm : Imm4), s.mem.wf = true →
    ∃ t : State, complete 2 (ruleConstantCallWith .pushNextPc const s) = .next t ∧ t.pc = const ∧
      t.sp = s.sp - 17 ∧ SameBelt s t ∧ t.memRead s.sp = s.pc + 2 ∧
      (∀ i : Nat, i < 16 → t.memRead (spillAddress (s.sp - 1) i) = s.peek i) ∧
      (∀ a : Word, a ≠ s.sp → (∀ i : Nat, i < 16 → a ≠ spillAddress (s.sp - 1) i) → t.memRead a = s.memRead a) ∧
      ∃ u : State, exec (.immediateRet pos imm) t = .next u ∧ u.pc = s.pc + 2 ∧ u.sp = s.sp

/-- 43_immediate.md, what is common to class Immediate: every position and every immediate decodes for each of the three
operations under any injective SUBOP_MAP; the shifts push one value and continue past one word; Ret jumps, does not use its
position (decision D7, log entry 7), and uses the immediate as the number of the values it returns (D6, log entry 6). -/
def Obligations.ImmediateClassDecodesAndCompletes : Prop :=
  (∀ m : SubopMap, m.Injective → ∀ (op : ImmediateOp) (pos : BeltPos) (imm : Imm4) (w1 : Word),
    decodeWith m (firstWord 3 (m.immediate op) pos imm) w1 = some (Instr.ofImmediate op pos imm, 1)) ∧
  ∀ (pos : BeltPos) (imm : Imm4) (s : State),
    (∃ v, PushesAndContinues (.immediateShiftLeft pos imm) s 1 v) ∧
    (∃ v, PushesAndContinues (.immediateShiftRight pos imm) s 1 v) ∧
    (∃ dest, (execute (.immediateRet pos imm) s).result = .jump dest) ∧
    ∃ t : State, (∀ pos' : BeltPos, exec (.immediateRet pos' imm) s = .next t) ∧
      ∀ i : Nat, i < imm.toNat → t.peek i = s.peek i

/-- 43_immediate.md, the two shifts: the low 16 bits of `b[pos] * 2^imm`, and `b[pos]` shifted right with zeros entering
(logical: decision D3, log entry 3). -/
def Obligations.ImmediateShiftsPushShiftedValue : Prop :=
  ∀ (pos : BeltPos) (imm : Imm4) (s : State),
    PushesAndContinues (.immediateShiftLeft pos imm) s 1 ((s.peek pos.toNat).toNat * 2 ^ imm.toNat % 65536) ∧
    PushesAndContinues (.immediateShiftRight pos imm) s 1 ((s.peek pos.toNat).toNat / 2 ^ imm.toNat)

/-- 43_immediate.md, Immediate.Ret's final state (data movement: decision D6, log entry 6; position ignored: D7, log
entry 7; the pop: D8, log entry 8; the wrap of sp: D9, log entry 9): the `n` newest callee values in front, the popped words behind them in order, the
seventeenth word into pc, sp up by 17, no word of memory changed. -/
def Obligations.RetRestoresTheBeltAndReturns : Prop :=
  ∀ (pos : BeltPos) (imm : Imm4) (s : State),
    ∃ t : State, exec (.immediateRet pos imm) s = .next t ∧
      (∀ i : Nat, i < imm.toNat → t.peek i = s.peek i) ∧
      (∀ j : Nat, imm.toNat + j < 16 → t.peek (imm.toNat + j) = s.memRead (s.sp + BitVec.ofNat 16 (1 + j))) ∧
      t.pc = s.memRead (s.sp + 17) ∧ t.sp.toNat = (s.sp.toNat + 17) % 65536 ∧ SameMemory s t

/-- The source's Call/Ret round trip (95_test_vectors.md S6; decisions D5 to D9, log entries 5 to 9): a caller pushes
a return address from its belt and calls; whatever the callee does, if it comes to Ret with sp where Call left it and the
seventeen words of the frame unharmed, execution resumes at that address with sp as before the push, the callee's `n`
newest values in front and the caller's belt behind them. -/
def Obligations.CallThenRetRoundTrip : Prop :=
  ∀ (s : State) (ret pos : BeltPos) (const : Word) (imm : Imm4), s.mem.wf = true →
    ∃ s1 s2 : State, exec (.unaryPush ret) s = .next s1 ∧ exec (.constantCall const) s1 = .next s2 ∧
      s2.pc = const ∧ SameBelt s s2 ∧
      ∀ u : State, u.sp = s2.sp →
        (∀ j : Nat, 1 ≤ j → j ≤ 17 →
          u.memRead (s2.sp + BitVec.ofNat 16 j) = s2.memRead (s2.sp + BitVec.ofNat 16 j)) →
        ∃ t : State, exec (.immediateRet pos imm) u = .next t ∧ t.pc = s.peek ret.toNat ∧ t.sp = s.sp ∧
          (∀ i : Nat, i < imm.toNat → t.peek i = u.peek i) ∧
          (∀ j : Nat, imm.toNat + j < 16 → t.peek (imm.toNat + j) = s.peek j) ∧ SameMemory u t

/-- 44_register.md, Add, Sub and Mul: the low 16 bits of the exact sum, difference and product (Sub and Mul: decision D1,
log entry 2; operand order: D4, log entry 4; low half: D11, log entry 11). -/
def Obligations.RegisterArithmeticWraps : Prop :=
  ∀ (pos1 pos2 : BeltPos) (s : State),
    PushesAndContinues (.registerAdd pos1 pos2) s 1 (((s.peek pos1.toNat).toNat + (s.peek pos2.toNat).toNat) % 65536) ∧
    PushesAndContinues (.registerSub pos1 pos2) s 1
      (((s.peek pos1.toNat).toNat + 65536 - (s.peek pos2.toNat).toNat) % 65536) ∧
    PushesAndContinues (.registerMul pos1 pos2) s 1 (((s.peek pos1.toNat).toNat * (s.peek pos2.toNat).toNat) % 65536)

/-- 44_register.md, Div: with a non-zero divisor the unsigned quotient is pushed; with a zero divisor, whatever the
dividend, the step is Fail and changes nothing (unsigned: decision D3, log entry 3; `pos2` the divisor: D4, log
entry 4). -/
def Obligations.RegisterDivPushesQuotientOrFails : Prop :=
  ∀ (pos1 pos2 : BeltPos) (s : State),
    (s.peek pos2.toNat ≠ 0 →
      PushesAndContinues (.registerDiv pos1 pos2) s 1 ((s.peek pos1.toNat).toNat / (s.peek pos2.toNat).toNat)) ∧
    (s.peek pos2.toNat = 0 →
      execute (.registerDiv pos1 pos2) s = ⟨.fail, s⟩ ∧ exec (.registerDiv pos1 pos2) s = .fault .fail)

/-- 44_register.md, And, Or and Xor of two positions (decision D1, log entry 2). -/
def Obligations.RegisterLogicPushesCombination : Prop :=
  ∀ (pos1 pos2 : BeltPos) (s : State),
    PushesAndContinues (.registerAnd pos1 pos2) s 1 ((s.peek pos1.toNat).toNat &&& (s.peek pos2.toNat).toNat) ∧
    PushesAndContinues (.registerOr pos1 pos2) s 1 ((s.peek pos1.toNat).toNat ||| (s.peek pos2.toNat).toNat) ∧
    PushesAndContinues (.registerXor pos1 pos2) s 1 ((s.peek pos1.toNat).toNat ^^^ (s.peek pos2.toNat).toNat)

/-- 44_register.md, the two shifts by a belt value: the amount counts modulo 16 (decision D10, log entry 10), the right
shift is logical (D3, log entry 3), both operations are decision D1 (log entry 2), `pos2` the amount is D4 (log entry 4); and under the parameter's other value an
amount of 16 or more gives 0 and any other amount the same as the default. -/
def Obligations.RegisterShiftsReduceTheAmount : Prop :=
  (∀ (pos1 pos2 : BeltPos) (s : State),
    PushesAndContinues (.registerShiftLeft pos1 pos2) s 1
      ((s.peek pos1.toNat).toNat * 2 ^ ((s.peek pos2.toNat).toNat % 16) % 65536) ∧
    PushesAndContinues (.registerShiftRight pos1 pos2) s 1
      ((s.peek pos1.toNat).toNat / 2 ^ ((s.peek pos2.toNat).toNat % 16))) ∧
  ∀ (shift : Word → Nat → Word) (x y : Word),
    (16 ≤ y.toNat → shiftByWordWith .zeroWhenGe16 shift x y = 0) ∧
    (y.toNat < 16 → shiftByWordWith .zeroWhenGe16 shift x y = shiftByWordWith .mod16 shift x y)

/-- 44_register.md, Save: `M[b[pos2]] <- b[pos1]`, every other word of memory as before, nothing pushed, sp as before,
one word. -/
def Obligations.RegisterSaveStoresOneWord : Prop :=
  ∀ (pos1 pos2 : BeltPos) (s : State), s.mem.wf = true →
    (execute (.registerSave pos1 pos2) s).result = .cont ∧
    ∃ t : State, exec (.registerSave pos1 pos2) s = .next t ∧
      t.memRead (s.peek pos2.toNat) = s.peek pos1.toNat ∧
      (∀ a : Word, a ≠ s.peek pos2.toNat → t.memRead a = s.memRead a) ∧
      SameBelt s t ∧ t.sp = s.sp ∧ Advanced 1 s t

/-- 45_branch.md: a taken branch only jumps to the absolute target, one not taken only continues past both words; Lt and Le
compare unsigned (decision D3, log entry 3), Eq compares all sixteen bits. -/
def Obligations.BranchesJumpOrFallThrough : Prop :=
  ∀ (pos1 pos2 : BeltPos) (addr : Word) (s : State),
    (if (s.peek pos1.toNat).toNat < (s.peek pos2.toNat).toNat then OnlyJumps (.branchLt pos1 pos2 addr) s addr
      else OnlyContinues (.branchLt pos1 pos2 addr) s 2) ∧
    (if (s.peek pos1.toNat).toNat ≤ (s.peek pos2.toNat).toNat then OnlyJumps (.branchLe pos1 pos2 addr) s addr
      else OnlyContinues (.branchLe pos1 pos2 addr) s 2) ∧
    (if (s.peek pos1.toNat).toNat = (s.peek pos2.toNat).toNat then OnlyJumps (.branchEq pos1 pos2 addr) s addr
      else OnlyContinues (.branchEq pos1 pos2 addr) s 2)

/-- 46_unary.md, class Unary whole: `b[pos]` as the address of a load, as a jump target, as the value put on the stack (the
wrap of sp is decision D9, log entry 9); none can fail; a first word whose low nibble is not zero does not decode. -/
def Obligations.UnaryClassUsesBeltValue : Prop :=
  (∀ (pos : BeltPos) (s : State), s.mem.wf = true →
    PushesAndContinues (.unaryLoad pos) s 1 (s.memRead (s.peek pos.toNat)).toNat ∧
    OnlyJumps (.unaryJump pos) s (s.peek pos.toNat) ∧
    (execute (.unaryPush pos) s).result = .cont ∧
    ∃ t : State, exec (.unaryPush pos) s = .next t ∧
      t.memRead s.sp = s.peek pos.toNat ∧ (∀ a : Word, a ≠ s.sp → t.memRead a = s.memRead a) ∧
      t.sp.toNat = (s.sp.toNat + 65535) % 65536 ∧ SameBelt s t ∧ Advanced 1 s t) ∧
  ∀ (sub op1 op2 : BitVec 4) (w1 : Word), op2 ≠ 0 → decode (firstWord 6 sub op1 op2) w1 = none

/-- 47_zero.md, class Zero whole: Nop only continues; Pop pops the stack (increment, then read: decision D8, log entry 8;
the wrap of sp: D9, log entry 9) and pushes the word on the belt; Break halts with `Stop` on every path and changes nothing,
pc included (D16, log entry 15); the class's valid words are exactly its three operations', none with a non-zero operand nibble. -/
def Obligations.ZeroClassNopPopBreak : Prop :=
  (∀ s : State,
    OnlyContinues .zeroNop s 1 ∧
    (execute .zeroPop s).result = .cont ∧
    (∃ t : State, exec .zeroPop s = .next t ∧ Pushed s t (s.memRead (s.sp + 1)) ∧
      t.sp.toNat = (s.sp.toNat + 1) % 65536 ∧ SameMemory s t ∧ Advanced 1 s t) ∧
    execute .zeroBreak s = ⟨.stop, s⟩ ∧ exec .zeroBreak s = .fault .stop) ∧
  (∀ (sub op1 op2 : BitVec 4) (w1 : Word), op1 ≠ 0 ∨ op2 ≠ 0 → decode (firstWord 7 sub op1 op2) w1 = none) ∧
  ∀ w0 w1 : Word, mainField w0 = 7 →
    ((decode w0 w1).isSome = true ↔ ∃ op : ZeroOp, w0 = firstWord 7 (subopMap.zero op) 0 0)

/-- 47_zero.md, Pop after Push: the value comes to the front of the belt again, sp is back where it was before the Push,
and the word stays in memory (the pop is decision D8, log entry 8). (The rule's sentence that sp is then "as after the push" is read by its operations: log
entry 23.) -/
def Obligations.PopAfterPushCopiesTheValue : Prop :=
  ∀ (pos : BeltPos) (s : State), s.mem.wf = true →
    ∃ t u : State, exec (.unaryPush pos) s = .next t ∧ exec .zeroPop t = .next u ∧
      Pushed s u (s.peek pos.toNat) ∧ u.sp = s.sp ∧ SameMemory t u ∧ u.memRead s.sp = s.peek pos.toNat ∧
      Advanced 2 s u

/-! ### The step and its results -/

/-- A step at a word that decodes is the meaning of the instruction it decodes to, which moves pc itself; a step at a word
that does not decode is Stop. -/
def Obligations.StepRunsTheDecodedInstruction : Prop :=
  ∀ s : State,
    (∀ (i : Instr) (n : Nat), decode (s.memRead s.pc) (s.memRead (s.pc + 1)) = some (i, n) → step s = exec i s) ∧
    (decode (s.memRead s.pc) (s.memRead (s.pc + 1)) = none → step s = .fault .stop)

/-- R98: a step whose fetched first word does not decode returns Stop and changes nothing. -/
def Obligations.DecodeFailureStopsWithoutChange : Prop :=
  ∀ s : State, decode (s.memRead s.pc) (s.memRead (s.pc + 1)) = none →
    stepWithResult s = ⟨.stop, s⟩ ∧ step s = .fault .stop

/-- 10_state.md section 3: pc keeps the instruction's address through its execution, no instruction but a linking Call
(decision D5, log entry 5) reads it, and the step updates it once, from the result: by the words consumed, modulo 2^16; to
the destination; or not at all (at Break: decision D16, log entry 15). -/
def Obligations.PcIsUpdatedOnceFromTheResult : Prop :=
  (∀ (s : State) (i : Instr) (n : Nat), decode s.fetch.1 s.fetch.2 = some (i, n) →
    (n = 1 ∨ n = 2) ∧ (execute i s).state.pc = s.pc ∧
    match (stepWithResult s).result with
    | .cont => Advanced n s (stepWithResult s).state
    | .jump dest => (stepWithResult s).state.pc = dest
    | .stop => (stepWithResult s).state.pc = s.pc
    | .fail => (stepWithResult s).state.pc = s.pc) ∧
  (∀ (s : State) (i : Instr) (a : Word),
    execute i (s.setPc a) = ⟨(execute i s).result, (execute i s).state.setPc a⟩) ∧
  ∀ (const : Word) (s : State), s.mem.wf = true →
    (ruleConstantCallWith .pushNextPc const s).state.memRead s.sp = s.pc + 2

/-- 40_codec_and_step.md section 4: the host's outcome of a step is that of the spec's own step, which answers a result and a
state: the same next state for Continue and Jump, a halt for Stop and Fail. -/
def Obligations.StepAgreesWithTheSpecStep : Prop := ∀ s : State, step s = toOutcome (stepWithResult s)

/-- 40_codec_and_step.md section 4, the spec's own inference which results each class can return. -/
def Obligations.ResultsByInstruction : Prop := ∀ (i : Instr) (s : State), MayReturn i (execute i s).result

/-- 60_exceptions.md section 1: Fail has one cause, Register.Div with a zero divisor (that `pos2` is the divisor is decision
D4, log entry 4); the step changes nothing and pc still addresses the Div. -/
def Obligations.FailHasOneCause : Prop :=
  ∀ s : State,
    ((stepWithResult s).result = .fail ↔
      ∃ (pos1 pos2 : BeltPos) (n : Nat), decode s.fetch.1 s.fetch.2 = some (.registerDiv pos1 pos2, n) ∧
        s.peek pos2.toNat = 0) ∧
    ((stepWithResult s).result = .fail → (stepWithResult s).state = s) ∧
    (step s = .fault .fail ↔ (stepWithResult s).result = .fail)

/-- 60_exceptions.md section 1: Stop has two causes, a failed decode and Zero.Break, and the step that stops changes
nothing (pc at Break: decision D16, log entry 15). -/
def Obligations.StopHasTwoCauses : Prop :=
  ∀ s : State,
    (step s = .fault .stop ↔
      decode s.fetch.1 s.fetch.2 = none ∨ decode s.fetch.1 s.fetch.2 = some (.zeroBreak, 1)) ∧
    (step s = .fault .stop → stepWithResult s = ⟨.stop, s⟩)

/-- 60_exceptions.md section 1: after Stop or Fail every further step returns the same result from the same state (no
latch: decision D16, log entry 15). -/
def Obligations.HaltRepeatsForEver : Prop :=
  ∀ (s : State) (r : StepResult), r = .stop ∨ r = .fail → (stepWithResult s).result = r →
    ∀ k : Nat, stepsWithResults k s = (List.replicate k r, s)

/-- 60_exceptions.md sections 1 and 3: every instruction completes in every state, but for Zero.Break and a division by zero;
and no step is refused (`pos2` as the divisor is decision D4, log entry 4). -/
def Obligations.EveryInstructionCompletesExceptHalts : Prop :=
  (∀ (i : Instr) (s : State),
    (∃ t : State, exec i s = .next t) ∨ i = .zeroBreak ∨
      ∃ pos1 pos2 : BeltPos, i = .registerDiv pos1 pos2 ∧ s.peek pos2.toNat = 0) ∧
  ∀ (s : State) (r : Refusal), step s ≠ .refused r

/-- A step is safe in the sense of Safety.lean exactly when it is not a division by zero (60_exceptions.md sections 1
and 3; the halts of log entry 14 are safe, `pos2` as the divisor is D4, log entry 4). -/
def Obligations.StepIsSafeUnlessItDividesByZero : Prop :=
  ∀ s : State, SafeStep s ↔
    ¬ ∃ (pos1 pos2 : BeltPos) (n : Nat), decode s.fetch.1 s.fetch.2 = some (.registerDiv pos1 pos2, n) ∧
      s.peek pos2.toNat = 0

/-! ### What no instruction changes -/

/-- 20_memory.md section 4: only Save, Push and Call store, and only to the addresses computed for them; every other word of
memory reads as before, after any instruction (Call without link: decision D5, log entry 5). -/
def Obligations.OnlyStoringInstructionsChangeMemory : Prop :=
  ∀ (i : Instr) (s t : State), exec i s = .next t → ∀ a : Word, a ∉ storedTo i s → t.memRead a = s.memRead a

/-- 10_state.md section 4: only Push, Pop, Call and Ret change sp, each by its own fixed amount, modulo 2^16 (decision D9,
log entry 9; Call without link: D5, log entry 5). -/
def Obligations.OnlyStackInstructionsChangeSp : Prop :=
  ∀ (i : Instr) (s t : State), exec i s = .next t → t.sp = spAfter i s

/-- 20_memory.md section 3, fetch coherence: a word saved over the next instruction is what the very next step fetches, and
the Save that stores it is not affected, even where it overwrites itself. -/
def Obligations.StoredWordIsFetchedNext : Prop :=
  ∀ (s : State) (pos1 pos2 : BeltPos), s.mem.wf = true →
    decode (s.memRead s.pc) (s.memRead (s.pc + 1)) = some (.registerSave pos1 pos2, 1) →
    ∃ t : State, step s = .next t ∧ t.pc = s.pc + 1 ∧ t.memRead (s.peek pos2.toNat) = s.peek pos1.toNat ∧
      (s.peek pos2.toNat = s.pc + 1 →
        (∀ (i : Instr) (n : Nat), decode (s.peek pos1.toNat) (s.memRead (s.pc + 2)) = some (i, n) → step t = exec i t) ∧
        (decode (s.peek pos1.toNat) (s.memRead (s.pc + 2)) = none → step t = .fault .stop))

/-! ### The codec -/

/-- 40_codec_and_step.md section 3 and 30_encoding.md section 5, for any injective SUBOP_MAP: a decoded word re-encodes to
itself, an encoded instruction decodes to itself whatever follows a one-word instruction, and two words that decode alike
are the same word. -/
def Obligations.CodecRoundTrip : Prop :=
  ∀ m : SubopMap, m.Injective →
    (∀ (w s : Word) (i : Instr) (n : Nat), decodeWith m w s = some (i, n) →
      encodeWith m i = (w, if n = 2 then some s else none)) ∧
    (∀ (i : Instr) (s : Word), i.wellFormed = true ∧
      decodeWith m (encodeWith m i).1 ((encodeWith m i).2.getD s) = some (i, i.words) ∧
      (i.words = 2 ↔ (encodeWith m i).2.isSome = true) ∧ (i.words = 1 ↔ (encodeWith m i).2 = none)) ∧
    ∀ (w s w' s' : Word) (i : Instr) (n : Nat), decodeWith m w s = some (i, n) → decodeWith m w' s' = some (i, n) →
      w = w' ∧ (n = 2 → s = s')

/-- The default SUBOP_MAP (decision D2, log entry 1) is injective in every class. -/
def Obligations.DefaultSubopMapIsInjective : Prop := subopMap.Injective

/-- 30_encoding.md section 3, for any SUBOP_MAP: a first word fails to decode exactly when its main opcode is no class, its
sub-opcode is no operation's code, or a nibble its class does not use is not zero. -/
def Obligations.DecodeFailsExactlyOnIllegalWords : Prop :=
  ∀ (m : SubopMap) (w0 w1 : Word), decodeWith m w0 w1 = none ↔
    (mainField w0 = 0 ∨ 8 ≤ (mainField w0).toNat) ∨
    ((mainField w0 = 1 ∧ ∀ op, m.beltConstant op ≠ subField w0) ∨
      (mainField w0 = 2 ∧ ∀ op, m.constant op ≠ subField w0) ∨
      (mainField w0 = 3 ∧ ∀ op, m.immediate op ≠ subField w0) ∨
      (mainField w0 = 4 ∧ ∀ op, m.register op ≠ subField w0) ∨
      (mainField w0 = 5 ∧ ∀ op, m.branch op ≠ subField w0) ∨
      (mainField w0 = 6 ∧ ∀ op, m.unary op ≠ subField w0) ∨
      (mainField w0 = 7 ∧ ∀ op, m.zero op ≠ subField w0)) ∨
    (((mainField w0 = 1 ∨ mainField w0 = 6) ∧ op2Field w0 ≠ 0) ∨
      ((mainField w0 = 2 ∨ mainField w0 = 7) ∧ (op1Field w0 ≠ 0 ∨ op2Field w0 ≠ 0)))

/-- 30_encoding.md section 3: how many first words decode, class by class; 4,199 of the 65,536 in all. -/
def Obligations.ValidFirstWordCounts : Prop :=
  validCount 1 = 48 ∧ validCount 2 = 4 ∧ validCount 3 = 768 ∧ validCount 4 = 2560 ∧ validCount 5 = 768 ∧
  validCount 6 = 48 ∧ validCount 7 = 3 ∧ (∀ main : BitVec 4, main = 0 ∨ 8 ≤ main.toNat → validCount main = 0) ∧
  (Finset.univ.filter (fun w : Word => decodeValid w 0 = true)).card = 4199

/-- R60: the length is one or two words and a function of the main opcode alone: two for classes 1, 2 and 5, one for all
others. -/
def Obligations.LengthIsAFunctionOfTheMainOpcode : Prop :=
  ∀ (m : SubopMap) (w0 w1 : Word) (i : Instr) (n : Nat), decodeWith m w0 w1 = some (i, n) →
    n = (if mainField w0 = 1 ∨ mainField w0 = 2 ∨ mainField w0 = 5 then 2 else 1)

/-- R63: the second word is the next word of memory, wrapping; it never makes a decode fail; in classes 1, 2 and 5 it is
taken whole as the constant or address; in the other classes it is ignored. -/
def Obligations.SecondWordIsTakenWholeOrIgnored : Prop :=
  (∀ (m : SubopMap) (w0 w1 w1' : Word),
    ((decodeWith m w0 w1).isSome = (decodeWith m w0 w1').isSome) ∧
    (mainField w0 = 1 ∨ mainField w0 = 2 ∨ mainField w0 = 5 → ∀ (i : Instr) (n : Nat),
      decodeWith m w0 w1 = some (i, n) → (encodeWith m i).2 = some w1) ∧
    (¬ (mainField w0 = 1 ∨ mainField w0 = 2 ∨ mainField w0 = 5) → decodeWith m w0 w1 = decodeWith m w0 w1')) ∧
  ∀ s : State, s.fetch.2 = s.memRead (BitVec.ofNat 16 ((s.pc.toNat + 1) % 65536))

/-- 30_encoding.md section 4, words written out from the table of encodings under the default SUBOP_MAP (decision D2, log
entry 1), one of each class, and words that are illegal. -/
def Obligations.SpecWordsDecodeAsTheSpecSays : Prop :=
  decode 0x1230#16 0x1234#16 = some (.beltConstantXor 3 0x1234#16, 2) ∧
  decode 0x2200#16 0x1234#16 = some (.constantCall 0x1234#16, 2) ∧
  decode 0x3272#16 0x1234#16 = some (.immediateRet 7 2, 1) ∧
  decode 0x4110#16 0x1234#16 = some (.registerSub 1 0, 1) ∧
  decode 0x50A5#16 0x1234#16 = some (.branchLt 10 5 0x1234#16, 2) ∧
  decode 0x62F0#16 0x1234#16 = some (.unaryPush 15, 1) ∧
  decode 0x7100#16 0x1234#16 = some (.zeroPop, 1) ∧
  decode 0x0000#16 0x1234#16 = none ∧ decode 0xFFFF#16 0x1234#16 = none ∧ decode 0x4A00#16 0x1234#16 = none ∧
  decode 0x1001#16 0x1234#16 = none

/-- 40_codec_and_step.md section 3, the preconditions of `encode` (labels: decision D18, log entry 17): a software encoder
emits words exactly for the well-formed values, refuses a label by name, and never truncates: two values with the same
words are the same value. -/
def Obligations.SourceEncoderRefusesAndNeverTruncates : Prop :=
  (∀ src : SourceInstr, (∃ ws, encodeSource src = .ok ws) ↔ src.wellFormed = true) ∧
  (∀ (op : ConstantOp) (name : String), encodeSource (.constant op (.label name)) = .error .unresolvedLabel) ∧
  ∀ (src src' : SourceInstr) (ws : Word × Option Word), encodeSource src = .ok ws → encodeSource src' = .ok ws →
    src = src'

/-! ### The host between steps -/

/-- 70_reset_and_hazards.md section 2: a program of at most 65,536 words loaded from address 0 stands there word by word,
every other word of memory is as before, and belt, pc and sp are untouched. -/
def Obligations.LoadedProgramStandsAtZero : Prop :=
  ∀ (s : State) (words : List Word), s.mem.wf = true → words.length ≤ 65536 →
    (∀ k : Nat, k < words.length → (s.loadProgram words).memRead (BitVec.ofNat 16 k) = words.getD k 0) ∧
    (∀ a : Word, words.length ≤ a.toNat → (s.loadProgram words).memRead a = s.memRead a) ∧
    (s.loadProgram words).belt = s.belt ∧ (s.loadProgram words).pc = s.pc ∧ (s.loadProgram words).sp = s.sp

/-- 70_reset_and_hazards.md section 2: an instruction's words loaded at address 0 after reset are what the first step
executes. -/
def Obligations.LoadedInstructionIsTheFirstExecuted : Prop :=
  ∀ i : Instr, step (State.reset.loadProgram (encodeWords i)) = exec i (State.reset.loadProgram (encodeWords i))

/-- 10_state.md section 7, construction from a snapshot (element `i` is position `i`: decision D13, log entry 13). -/
def Obligations.SnapshotHoldsWhatItIsGiven : Prop :=
  ∀ (belt : Belt) (memory : List Word) (pc sp : Word), memory.length ≤ 65536 →
    (∀ (i : Nat) (h : i < 16), (State.ofSnapshot belt memory pc sp).peek i = belt[i]) ∧
    (∀ a : Word, (State.ofSnapshot belt memory pc sp).memRead a = memory.getD a.toNat 0) ∧
    (State.ofSnapshot belt memory pc sp).pc = pc ∧ (State.ofSnapshot belt memory pc sp).sp = sp
end

