-- ==== Sys2Proof/Laws/State.lean ====
section
/-! SUPPORT. One lemma per field per update of State, so that no proof unfolds a record update; and the same for the
compound updates `push`, `loadBelt`, `memWrite`, `stackPush`, `stackPop`. -/

namespace Sys2Proof.Machine

@[simp] theorem State.setBelt_belt (s : State) (b : Belt) : (s.setBelt b).belt = b := rfl
@[simp] theorem State.setBelt_mem (s : State) (b : Belt) : (s.setBelt b).mem = s.mem := rfl
@[simp] theorem State.setBelt_pc (s : State) (b : Belt) : (s.setBelt b).pc = s.pc := rfl
@[simp] theorem State.setBelt_sp (s : State) (b : Belt) : (s.setBelt b).sp = s.sp := rfl

@[simp] theorem State.setMem_belt (s : State) (m : Memory) : (s.setMem m).belt = s.belt := rfl
@[simp] theorem State.setMem_mem (s : State) (m : Memory) : (s.setMem m).mem = m := rfl
@[simp] theorem State.setMem_pc (s : State) (m : Memory) : (s.setMem m).pc = s.pc := rfl
@[simp] theorem State.setMem_sp (s : State) (m : Memory) : (s.setMem m).sp = s.sp := rfl

@[simp] theorem State.setPc_belt (s : State) (a : Word) : (s.setPc a).belt = s.belt := rfl
@[simp] theorem State.setPc_mem (s : State) (a : Word) : (s.setPc a).mem = s.mem := rfl
@[simp] theorem State.setPc_pc (s : State) (a : Word) : (s.setPc a).pc = a := rfl
@[simp] theorem State.setPc_sp (s : State) (a : Word) : (s.setPc a).sp = s.sp := rfl

@[simp] theorem State.setSp_belt (s : State) (a : Word) : (s.setSp a).belt = s.belt := rfl
@[simp] theorem State.setSp_mem (s : State) (a : Word) : (s.setSp a).mem = s.mem := rfl
@[simp] theorem State.setSp_pc (s : State) (a : Word) : (s.setSp a).pc = s.pc := rfl
@[simp] theorem State.setSp_sp (s : State) (a : Word) : (s.setSp a).sp = a := rfl

@[simp] theorem State.push_belt (s : State) (v : Word) : (s.push v).belt = s.belt.push v := rfl
@[simp] theorem State.push_mem (s : State) (v : Word) : (s.push v).mem = s.mem := rfl
@[simp] theorem State.push_pc (s : State) (v : Word) : (s.push v).pc = s.pc := rfl
@[simp] theorem State.push_sp (s : State) (v : Word) : (s.push v).sp = s.sp := rfl

@[simp] theorem State.loadBelt_belt (s : State) (f : Nat → Word) : (s.loadBelt f).belt = Belt.tabulate f := rfl
@[simp] theorem State.loadBelt_mem (s : State) (f : Nat → Word) : (s.loadBelt f).mem = s.mem := rfl
@[simp] theorem State.loadBelt_pc (s : State) (f : Nat → Word) : (s.loadBelt f).pc = s.pc := rfl
@[simp] theorem State.loadBelt_sp (s : State) (f : Nat → Word) : (s.loadBelt f).sp = s.sp := rfl

@[simp] theorem State.memWrite_belt (s : State) (a v : Word) : (s.memWrite a v).belt = s.belt := rfl
@[simp] theorem State.memWrite_mem (s : State) (a v : Word) : (s.memWrite a v).mem = s.mem.write a v := rfl
@[simp] theorem State.memWrite_pc (s : State) (a v : Word) : (s.memWrite a v).pc = s.pc := rfl
@[simp] theorem State.memWrite_sp (s : State) (a v : Word) : (s.memWrite a v).sp = s.sp := rfl

@[simp] theorem State.stackPush_belt (s : State) (v : Word) : (s.stackPush v).belt = s.belt := rfl
@[simp] theorem State.stackPush_mem (s : State) (v : Word) : (s.stackPush v).mem = s.mem.write s.sp v := rfl
@[simp] theorem State.stackPush_pc (s : State) (v : Word) : (s.stackPush v).pc = s.pc := rfl
@[simp] theorem State.stackPush_sp (s : State) (v : Word) : (s.stackPush v).sp = s.sp - 1 := rfl

@[simp] theorem State.stackPop_snd_belt (s : State) : s.stackPop.2.belt = s.belt := rfl
@[simp] theorem State.stackPop_snd_mem (s : State) : s.stackPop.2.mem = s.mem := rfl
@[simp] theorem State.stackPop_snd_pc (s : State) : s.stackPop.2.pc = s.pc := rfl
@[simp] theorem State.stackPop_snd_sp (s : State) : s.stackPop.2.sp = s.sp + 1 := rfl

@[simp] theorem State.stackPop_fst (s : State) : s.stackPop.1 = s.memRead (s.sp + 1) := rfl

theorem State.ext_fields (s t : State) (hb : s.belt = t.belt) (hm : s.mem = t.mem) (hp : s.pc = t.pc)
    (hs : s.sp = t.sp) : s = t := by
  cases s
  cases t
  simp_all

@[simp] theorem State.setMem_peek (s : State) (m : Memory) (i : Nat) : (s.setMem m).peek i = s.peek i := rfl
@[simp] theorem State.setMem_beltAt (s : State) (m : Memory) (p : BeltPos) : (s.setMem m).beltAt p = s.beltAt p := rfl
@[simp] theorem State.setPc_peek (s : State) (a : Word) (i : Nat) : (s.setPc a).peek i = s.peek i := rfl
@[simp] theorem State.setPc_beltAt (s : State) (a : Word) (p : BeltPos) : (s.setPc a).beltAt p = s.beltAt p := rfl
@[simp] theorem State.setSp_peek (s : State) (a : Word) (i : Nat) : (s.setSp a).peek i = s.peek i := rfl
@[simp] theorem State.setSp_beltAt (s : State) (a : Word) (p : BeltPos) : (s.setSp a).beltAt p = s.beltAt p := rfl
@[simp] theorem State.memWrite_peek (s : State) (a v : Word) (i : Nat) : (s.memWrite a v).peek i = s.peek i := rfl
@[simp] theorem State.memWrite_beltAt (s : State) (a v : Word) (p : BeltPos) : (s.memWrite a v).beltAt p = s.beltAt p := rfl
@[simp] theorem State.stackPush_peek (s : State) (v : Word) (i : Nat) : (s.stackPush v).peek i = s.peek i := rfl
@[simp] theorem State.stackPush_beltAt (s : State) (v : Word) (p : BeltPos) : (s.stackPush v).beltAt p = s.beltAt p := rfl
@[simp] theorem State.stackPop_snd_peek (s : State) (i : Nat) : s.stackPop.2.peek i = s.peek i := rfl
@[simp] theorem State.stackPop_snd_memRead (s : State) (a : Word) : s.stackPop.2.memRead a = s.memRead a := rfl

@[simp] theorem State.setBelt_memRead (s : State) (b : Belt) (a : Word) : (s.setBelt b).memRead a = s.memRead a := rfl
@[simp] theorem State.setPc_memRead (s : State) (c : Word) (a : Word) : (s.setPc c).memRead a = s.memRead a := rfl
@[simp] theorem State.setSp_memRead (s : State) (c : Word) (a : Word) : (s.setSp c).memRead a = s.memRead a := rfl
@[simp] theorem State.push_memRead (s : State) (v : Word) (a : Word) : (s.push v).memRead a = s.memRead a := rfl
@[simp] theorem State.loadBelt_memRead (s : State) (f : Nat → Word) (a : Word) : (s.loadBelt f).memRead a = s.memRead a := rfl

end Sys2Proof.Machine
end

