-- ==== Sys2Proof/Laws/Belt.lean ====
section
/-! SUPPORT. The belt operations, position by position. -/

namespace Sys2Proof.Machine

theorem Belt.peek_mod (b : Belt) (i : Nat) : b.peek (i % 16) = b.peek i := by
  simp [Belt.peek]

@[simp] theorem Belt.peek_push_zero (b : Belt) (v : Word) : (b.push v).peek 0 = v := rfl

theorem Belt.peek_push_succ (b : Belt) (v : Word) {i : Nat} (h : i < 15) : (b.push v).peek (i + 1) = b.peek i := by
  interval_cases i <;> rfl

theorem Belt.peek_tabulate (f : Nat → Word) {i : Nat} (h : i < 16) : (Belt.tabulate f).peek i = f i := by
  interval_cases i <;> rfl

theorem Belt.ext_peek {b c : Belt} (h : ∀ i, i < 16 → b.peek i = c.peek i) : b = c := by
  apply Vector.ext
  intro i hi
  have := h i hi
  simpa [Belt.peek, Nat.mod_eq_of_lt hi] using this

@[simp] theorem State.peek_push_zero (s : State) (v : Word) : (s.push v).peek 0 = v := rfl

theorem State.peek_push_succ (s : State) (v : Word) {i : Nat} (h : i < 15) : (s.push v).peek (i + 1) = s.peek i :=
  Belt.peek_push_succ s.belt v h

theorem State.peek_loadBelt (s : State) (f : Nat → Word) {i : Nat} (h : i < 16) : (s.loadBelt f).peek i = f i :=
  Belt.peek_tabulate f h

/-- The `n` newest values of `snap` pushed again on a belt: they stand in front in their own order, what was there stands
`n` positions further back (43_immediate.md R133). -/
theorem State.repush_peek (snap : Belt) : ∀ (n : Nat) (s : State), n ≤ 16 →
    (∀ i, i < n → (State.repush snap n s).peek i = snap.peek i) ∧
      (∀ j, n + j < 16 → (State.repush snap n s).peek (n + j) = s.peek j)
  | 0, s, _ => ⟨fun i h => absurd h (by omega), fun j _ => by simp [State.repush]⟩
  | n + 1, s, hn => by
    obtain ⟨h1, h2⟩ := State.repush_peek snap n (s.push (snap.peek n)) (by omega)
    refine ⟨fun i hi => ?_, fun j hj => ?_⟩
    · show (State.repush snap n (s.push (snap.peek n))).peek i = _
      rcases Nat.lt_or_ge i n with h | h
      · exact h1 i h
      · have e : i = n := by omega
        subst e
        have := h2 0 (by omega)
        simpa using this
    · show (State.repush snap n (s.push (snap.peek n))).peek (n + 1 + j) = _
      have := h2 (j + 1) (by omega)
      rw [show n + 1 + j = n + (j + 1) by omega, this]
      exact State.peek_push_succ s _ (by omega)

@[simp] theorem State.repush_mem (snap : Belt) : ∀ (n : Nat) (s : State), (State.repush snap n s).mem = s.mem
  | 0, _ => rfl
  | n + 1, s => State.repush_mem snap n (s.push (snap.peek n))

@[simp] theorem State.repush_sp (snap : Belt) : ∀ (n : Nat) (s : State), (State.repush snap n s).sp = s.sp
  | 0, _ => rfl
  | n + 1, s => State.repush_sp snap n (s.push (snap.peek n))

@[simp] theorem State.repush_pc (snap : Belt) : ∀ (n : Nat) (s : State), (State.repush snap n s).pc = s.pc
  | 0, _ => rfl
  | n + 1, s => State.repush_pc snap n (s.push (snap.peek n))

end Sys2Proof.Machine
end

