-- ==== Sys2Proof/Laws/Codec.lean ====
section
/-! SUPPORT. The fields of a first word and the sub-opcode search. -/

namespace Sys2Proof

theorem firstWord_getLsbD (m s a b : BitVec 4) (k : Nat) :
    (firstWord m s a b).getLsbD k =
      if k < 4 then b.getLsbD k else if k < 8 then a.getLsbD (k - 4) else
        if k < 12 then s.getLsbD (k - 8) else m.getLsbD (k - 12) := by
  unfold firstWord
  simp only [BitVec.getLsbD_append]
  by_cases h1 : k < 4
  · simp [h1]
  · by_cases h2 : k < 8
    · simp [h1, h2, show k - 4 < 4 by omega]
    · by_cases h3 : k < 12
      · simp [h1, h2, h3, show ¬ k - 4 < 4 by omega, show k - 8 < 4 by omega, show k - 4 - 4 = k - 8 by omega]
      · simp [h1, h2, h3, show ¬ k - 4 < 4 by omega, show ¬ k - 4 - 4 < 4 by omega, show k - 4 - 4 - 4 = k - 12 by omega]

@[simp] theorem mainField_firstWord (m s a b : BitVec 4) : mainField (firstWord m s a b) = m := by
  apply BitVec.eq_of_getLsbD_eq
  intro i hi
  simp only [mainField, BitVec.getLsbD_extractLsb', firstWord_getLsbD, hi]
  simp [show ¬ 12 + i < 4 by omega, show ¬ 12 + i < 8 by omega]

@[simp] theorem subField_firstWord (m s a b : BitVec 4) : subField (firstWord m s a b) = s := by
  apply BitVec.eq_of_getLsbD_eq
  intro i hi
  simp only [subField, BitVec.getLsbD_extractLsb', firstWord_getLsbD, hi]
  simp [show ¬ 8 + i < 4 by omega, show 8 + i < 12 by omega]

@[simp] theorem op1Field_firstWord (m s a b : BitVec 4) : op1Field (firstWord m s a b) = a := by
  apply BitVec.eq_of_getLsbD_eq
  intro i hi
  simp only [op1Field, BitVec.getLsbD_extractLsb', firstWord_getLsbD, hi]
  simp [show 4 + i < 8 by omega]

@[simp] theorem op2Field_firstWord (m s a b : BitVec 4) : op2Field (firstWord m s a b) = b := by
  apply BitVec.eq_of_getLsbD_eq
  intro i hi
  simp only [op2Field, BitVec.getLsbD_extractLsb', firstWord_getLsbD, hi]
  simp [hi]

/-- Every word is the first word of its own four fields. -/
theorem firstWord_fields (w : Word) : firstWord (mainField w) (subField w) (op1Field w) (op2Field w) = w := by
  apply BitVec.eq_of_getLsbD_eq
  intro i hi
  simp only [firstWord_getLsbD, mainField, subField, op1Field, op2Field, BitVec.getLsbD_extractLsb']
  by_cases h1 : i < 4
  · simp [h1]
  · by_cases h2 : i < 8
    · simp [h1, h2, show i - 4 < 4 by omega, show 4 + (i - 4) = i by omega]
    · by_cases h3 : i < 12
      · simp [h1, h2, h3, show i - 8 < 4 by omega, show 8 + (i - 8) = i by omega]
      · simp [h1, h2, h3, show i - 12 < 4 by omega, show 12 + (i - 12) = i by omega]

/-- What a sub-opcode search can answer: an operation of the list whose code it is. -/
theorem subopOf_ok {Op : Type} {code : Op → BitVec 4} {sub : BitVec 4} {op : Op} :
    ∀ {ops : List Op}, subopOf code sub ops = .ok op → op ∈ ops ∧ code op = sub
  | [], h => by cases h
  | o :: rest, h => by
    unfold subopOf at h
    split at h
    · rename_i hc
      cases h
      exact ⟨by simp, hc⟩
    · obtain ⟨hm, hc⟩ := subopOf_ok h
      exact ⟨by simp [hm], hc⟩

/-- A reserved sub-opcode is the code of no operation of the list. -/
theorem subopOf_error {Op : Type} {code : Op → BitVec 4} {sub : BitVec 4} {e : DecodeError} :
    ∀ {ops : List Op}, subopOf code sub ops = .error e → ∀ op ∈ ops, code op ≠ sub
  | [], _ => by simp
  | o :: rest, h => by
    unfold subopOf at h
    split at h
    · cases h
    · rename_i hc
      intro op hop
      rcases List.mem_cons.1 hop with rfl | hop
      · exact hc
      · exact subopOf_error h op hop

end Sys2Proof
end

