-- ==== Sys2Proof/Laws/Result.lean ====
section
/-! SUPPORT. What a completed instruction and a step can answer, said once. -/

namespace Sys2Proof.Machine

@[simp] theorem complete_continues (n : Nat) (s : State) :
    complete n (continues s) = .next (s.setPc (s.pc + BitVec.ofNat 16 n)) := rfl

@[simp] theorem complete_jumps (n : Nat) (dest : Word) (s : State) : complete n (jumps dest s) = .next (s.setPc dest) := rfl

@[simp] theorem complete_raises_stop (n : Nat) (s : State) : complete n (raises .stop s) = .fault .stop := rfl

@[simp] theorem complete_raises_fail (n : Nat) (s : State) : complete n (raises .fail s) = .fault .fail := rfl

@[simp] theorem complete_pushes (n : Nat) (v : Word) (s : State) :
    complete n (pushes v s) = .next ((s.push v).setPc (s.pc + BitVec.ofNat 16 n)) := rfl

/-- What a completed instruction can answer: with Continue or Jump the rule's state, its pc moved; with Stop or Fail a
halt; never a refusal. -/
theorem complete_cases (n : Nat) (e : Executed) :
    (e.result = .cont ∧ complete n e = .next (e.state.setPc (e.state.pc + BitVec.ofNat 16 n))) ∨
      (∃ dest, e.result = .jump dest ∧ complete n e = .next (e.state.setPc dest)) ∨
        (e.result = .stop ∧ complete n e = .fault .stop) ∨ (e.result = .fail ∧ complete n e = .fault .fail) := by
  obtain ⟨r, s⟩ := e
  cases r with
  | cont => exact .inl ⟨rfl, rfl⟩
  | jump d => exact .inr (.inl ⟨d, rfl, rfl⟩)
  | stop => exact .inr (.inr (.inl ⟨rfl, rfl⟩))
  | fail => exact .inr (.inr (.inr ⟨rfl, rfl⟩))

theorem complete_next {n : Nat} {e : Executed} {t : State} (h : complete n e = .next t) :
    ∃ a : Word, t = e.state.setPc a := by
  rcases complete_cases n e with ⟨-, h'⟩ | ⟨d, -, h'⟩ | ⟨-, h'⟩ | ⟨-, h'⟩ <;> rw [h'] at h
  · exact ⟨_, (Host.Outcome.next.inj h).symm⟩
  · exact ⟨_, (Host.Outcome.next.inj h).symm⟩
  · cases h
  · cases h

/-- What a two-position comparison can answer. -/
theorem branches_cases (test : Word → Word → Bool) (pos1 pos2 : BeltPos) (addr : Word) (s : State) :
    (test (s.beltAt pos1) (s.beltAt pos2) = true ∧ branches test pos1 pos2 addr s = jumps addr s) ∨
      (test (s.beltAt pos1) (s.beltAt pos2) = false ∧ branches test pos1 pos2 addr s = continues s) := by
  unfold branches
  cases h : test (s.beltAt pos1) (s.beltAt pos2)
  · exact .inr ⟨rfl, rfl⟩
  · exact .inl ⟨rfl, rfl⟩

/-- What a step can answer: Stop for a word that does not decode, else the meaning of the instruction it decodes to. -/
theorem step_cases (s : State) :
    (decode s.fetch.1 s.fetch.2 = none ∧ step s = .fault .stop) ∨
      ∃ i n, decode s.fetch.1 s.fetch.2 = some (i, n) ∧ step s = exec i s := by
  unfold step
  cases h : decode s.fetch.1 s.fetch.2 with
  | none => exact .inl ⟨rfl, rfl⟩
  | some r => exact .inr ⟨r.1, r.2, rfl, rfl⟩

end Sys2Proof.Machine
end

