-- ==== Sys2Proof/Laws/Memory.lean ====
section
/-! SUPPORT. The memory operations: read after write, and that every operation keeps the canonical form. -/

namespace Sys2Proof.Machine

theorem Memory.wfFrom_mono {lo lo' : Nat} (hlo : lo' ≤ lo) : ∀ {m : Memory}, m.wfFrom lo = true → m.wfFrom lo' = true
  | [], _ => rfl
  | (a, v) :: rest, h => by
    simp only [Memory.wfFrom, Bool.and_eq_true, decide_eq_true_eq] at h ⊢
    exact ⟨⟨⟨by omega, h.1.1.2⟩, h.1.2⟩, h.2⟩

/-- A canonical list holds nothing below its bound. -/
theorem Memory.lookup_below {lo key : Nat} (hk : key < lo) :
    ∀ {m : Memory}, m.wfFrom lo = true → m.lookup key = Memory.unlisted
  | [], _ => rfl
  | (a, v) :: rest, h => by
    simp only [Memory.wfFrom, Bool.and_eq_true, decide_eq_true_eq] at h
    have hne : a ≠ key := by omega
    simp only [Memory.lookup, hne, if_false]
    exact Memory.lookup_below (by omega) h.2

theorem Memory.insert_wfFrom {lo key : Nat} {v : Word} (hlo : lo ≤ key) (hk : key < 65536) :
    ∀ {m : Memory}, m.wfFrom lo = true → (m.insert key v).wfFrom lo = true
  | [], _ => by
    unfold Memory.insert
    split
    · rfl
    · rename_i hv
      simp [Memory.wfFrom, hlo, hk, hv]
  | (a, w) :: rest, h => by
    have h' := h
    simp only [Memory.wfFrom, Bool.and_eq_true, decide_eq_true_eq] at h
    unfold Memory.insert
    split
    · rename_i hlt
      split
      · exact h'
      · rename_i hv
        have hr : Memory.wfFrom (key + 1) ((a, w) :: rest) = true := by
          simp only [Memory.wfFrom, Bool.and_eq_true, decide_eq_true_eq]
          exact ⟨⟨⟨by omega, h.1.1.2⟩, h.1.2⟩, h.2⟩
        simp only [Memory.wfFrom, Bool.and_eq_true, decide_eq_true_eq] at hr ⊢
        exact ⟨⟨⟨hlo, hk⟩, hv⟩, hr⟩
    · split
      · rename_i heq
        subst heq
        split
        · exact Memory.wfFrom_mono (by omega) h.2
        · rename_i hv
          simp only [Memory.wfFrom, Bool.and_eq_true, decide_eq_true_eq]
          exact ⟨⟨⟨hlo, hk⟩, hv⟩, h.2⟩
      · simp only [Memory.wfFrom, Bool.and_eq_true, decide_eq_true_eq]
        exact ⟨h.1, Memory.insert_wfFrom (by omega) hk h.2⟩

theorem Memory.lookup_insert_same {lo key : Nat} {v : Word} :
    ∀ {m : Memory}, m.wfFrom lo = true → (m.insert key v).lookup key = v
  | [], _ => by
    unfold Memory.insert
    split
    · rename_i hv
      exact hv.symm
    · simp [Memory.lookup]
  | (a, w) :: rest, h => by
    simp only [Memory.wfFrom, Bool.and_eq_true, decide_eq_true_eq] at h
    unfold Memory.insert
    split
    · rename_i hlt
      split
      · rename_i hv
        have hne : a ≠ key := by omega
        simp only [Memory.lookup, hne, if_false]
        rw [hv]
        exact Memory.lookup_below (lo := a + 1) (by omega) h.2
      · simp [Memory.lookup]
    · split
      · rename_i heq
        subst heq
        split
        · rename_i hv
          rw [hv]
          exact Memory.lookup_below (by omega) h.2
        · simp [Memory.lookup]
      · rename_i hne
        have hne' : a ≠ key := fun e => hne e.symm
        simp only [Memory.lookup, hne', if_false]
        exact Memory.lookup_insert_same h.2

theorem Memory.lookup_insert_other {key other : Nat} {v : Word} (hne : other ≠ key) :
    ∀ {m : Memory}, (m.insert key v).lookup other = m.lookup other
  | [] => by
    unfold Memory.insert
    split
    · rfl
    · simp [Memory.lookup, Ne.symm hne]
  | (a, w) :: rest => by
    unfold Memory.insert
    split
    · split
      · rfl
      · simp [Memory.lookup, Ne.symm hne]
    · split
      · rename_i heq
        subst heq
        split
        · simp [Memory.lookup, Ne.symm hne]
        · simp [Memory.lookup, Ne.symm hne]
      · simp only [Memory.lookup]
        rw [Memory.lookup_insert_other hne]

/-- A write keeps the canonical form. -/
theorem Memory.write_wf {m : Memory} (h : m.wf = true) (a v : Word) : (m.write a v).wf = true :=
  Memory.insert_wfFrom (Nat.zero_le _) a.isLt h

/-- A read after a write to the same address gives the value written. -/
theorem Memory.read_write_same {m : Memory} (h : m.wf = true) (a v : Word) : (m.write a v).read a = v :=
  Memory.lookup_insert_same h

/-- A write leaves every other address alone. -/
theorem Memory.read_write_other (m : Memory) {a c : Word} (hne : c ≠ a) (v : Word) : (m.write a v).read c = m.read c :=
  Memory.lookup_insert_other (fun e => hne (BitVec.eq_of_toNat_eq e))

theorem Memory.read_write {m : Memory} (h : m.wf = true) (a v c : Word) :
    (m.write a v).read c = if c = a then v else m.read c := by
  split
  · rename_i e
    subst e
    exact Memory.read_write_same h c v
  · rename_i hne
    exact Memory.read_write_other m hne v

theorem State.memRead_memWrite {s : State} (h : s.mem.wf = true) (a v c : Word) :
    (s.memWrite a v).memRead c = if c = a then v else s.memRead c :=
  Memory.read_write h a v c

theorem State.memRead_memWrite_other (s : State) {a c : Word} (hne : c ≠ a) (v : Word) :
    (s.memWrite a v).memRead c = s.memRead c :=
  Memory.read_write_other s.mem hne v

theorem State.memWrite_wf {s : State} (h : s.mem.wf = true) (a v : Word) : (s.memWrite a v).mem.wf = true :=
  Memory.write_wf h a v

theorem State.reset_mem_wf : State.reset.mem.wf = true := rfl

end Sys2Proof.Machine
end

