-- ==== Sys2Proof/Laws/Stack.lean ====
section
/-! SUPPORT. The stack operations: what one push, a spill and a row of pops can do. -/

namespace Sys2Proof.Machine

theorem State.stackPush_wf {s : State} (h : s.mem.wf = true) (v : Word) : (s.stackPush v).mem.wf = true :=
  Memory.write_wf h s.sp v

theorem State.memRead_stackPush {s : State} (h : s.mem.wf = true) (v c : Word) :
    (s.stackPush v).memRead c = if c = s.sp then v else s.memRead c :=
  Memory.read_write h s.sp v c

/-- A pop after a push gives the value pushed, at the sp before the push. -/
theorem State.stackPop_stackPush {s : State} (h : s.mem.wf = true) (v : Word) :
    (s.stackPush v).stackPop.1 = v ∧ (s.stackPush v).stackPop.2.sp = s.sp := by
  have e : s.sp - 1 + 1 = s.sp := by bv_omega
  refine ⟨?_, e⟩
  show (s.stackPush v).memRead ((s.stackPush v).sp + 1) = v
  rw [State.stackPush_sp, e, State.memRead_stackPush h, if_pos rfl]

@[simp] theorem State.spill_belt (b : Belt) : ∀ (n : Nat) (s : State), (State.spill b n s).belt = s.belt
  | 0, _ => rfl
  | n + 1, s => State.spill_belt b n (s.stackPush (b.peek n))

@[simp] theorem State.spill_pc (b : Belt) : ∀ (n : Nat) (s : State), (State.spill b n s).pc = s.pc
  | 0, _ => rfl
  | n + 1, s => State.spill_pc b n (s.stackPush (b.peek n))

theorem State.spill_sp (b : Belt) : ∀ (n : Nat) (s : State), (State.spill b n s).sp = s.sp - BitVec.ofNat 16 n
  | 0, s => by simp [State.spill]
  | n + 1, s => by
    show (State.spill b n (s.stackPush (b.peek n))).sp = _
    rw [State.spill_sp b n, State.stackPush_sp]
    bv_omega

theorem State.spill_wf (b : Belt) : ∀ (n : Nat) {s : State}, s.mem.wf = true → (State.spill b n s).mem.wf = true
  | 0, _, h => h
  | n + 1, _, h => State.spill_wf b n (State.stackPush_wf h _)

/-- What a spill of `n` words leaves in memory: `b[n-1]` at the old sp, `b[0]` at `sp - (n - 1)`, every other word as it
was (42_constant.md R123). -/
theorem State.memRead_spill (b : Belt) : ∀ (n : Nat) {s : State}, s.mem.wf = true → n ≤ 16 →
    (∀ i, i < n → (State.spill b n s).memRead (s.sp - BitVec.ofNat 16 (n - 1 - i)) = b.peek i) ∧
      (∀ c : Word, (∀ i, i < n → c ≠ s.sp - BitVec.ofNat 16 i) → (State.spill b n s).memRead c = s.memRead c)
  | 0, _, _, _ => ⟨fun i h => absurd h (by omega), fun c _ => rfl⟩
  | n + 1, s, hwf, hn => by
    obtain ⟨h1, h2⟩ := State.memRead_spill b n (State.stackPush_wf hwf (b.peek n)) (by omega)
    refine ⟨fun i hi => ?_, fun c hc => ?_⟩
    · show (State.spill b n (s.stackPush (b.peek n))).memRead _ = _
      rcases Nat.lt_or_ge i n with h | h
      · have := h1 i h
        rw [State.stackPush_sp] at this
        rw [← this]
        congr 1
        bv_omega
      · have e : i = n := by omega
        subst e
        rw [h2, State.memRead_stackPush hwf, if_pos (by simp)]
        intro j hj
        rw [State.stackPush_sp]
        bv_omega
    · show (State.spill b n (s.stackPush (b.peek n))).memRead c = _
      rw [h2, State.memRead_stackPush hwf, if_neg]
      · have := hc 0 (by omega)
        simpa using this
      · intro j hj
        rw [State.stackPush_sp]
        have := hc (j + 1) (by omega)
        intro e
        apply this
        rw [e]
        bv_omega

/-- What a row of `n` pops can do: the `k`-th word popped is the one `k + 1` above sp, sp moves up by `n`, and nothing
else changes (20_memory.md R48). -/
theorem State.popMany_spec : ∀ (n : Nat) (s : State),
    (State.popMany n s).1.length = n ∧
      (∀ k, k < n → (State.popMany n s).1.getD k 0 = s.memRead (s.sp + BitVec.ofNat 16 (k + 1))) ∧
        (State.popMany n s).2.sp = s.sp + BitVec.ofNat 16 n ∧ (State.popMany n s).2.mem = s.mem ∧
          (State.popMany n s).2.belt = s.belt ∧ (State.popMany n s).2.pc = s.pc
  | 0, s => by
    refine ⟨rfl, fun k h => absurd h (by omega), ?_, rfl, rfl, rfl⟩
    simp [State.popMany]
  | n + 1, s => by
    obtain ⟨h1, h2, h3, h4, h5, h6⟩ := State.popMany_spec n s.stackPop.2
    refine ⟨by simp [State.popMany, h1], fun k hk => ?_, ?_, by simp [State.popMany, h4], by simp [State.popMany, h5],
      by simp [State.popMany, h6]⟩
    · cases k with
      | zero => rfl
      | succ k =>
        have := h2 k (by omega)
        simp only [State.stackPop_snd_sp, State.stackPop_snd_memRead] at this
        show (State.popMany n s.stackPop.2).1.getD k 0 = _
        rw [this]
        congr 1
        bv_omega
    · show (State.popMany n s.stackPop.2).2.sp = _
      rw [h3, State.stackPop_snd_sp]
      bv_omega

end Sys2Proof.Machine
end

