-- ==== Sys2Proof/Laws/Execute.lean ====
section
/-! SUPPORT. Every meaning is its rule completed; and what the shared shapes of an instruction can do. -/

namespace Sys2Proof.Machine

/-- The meaning of every instruction is its rule, completed past its own words. -/
theorem exec_eq_complete (i : Instr) (s : State) : exec i s = complete i.words (execute i s) := by
  cases i <;> exact rfl

/-- The default Call is the spill and the jump: no link is pushed (42_constant.md R123; log entry 5). -/
theorem ruleConstantCall_eq (const : Word) (s : State) :
    ruleConstantCall const s = jumps const (State.spill s.belt 16 s) := by
  simp only [ruleConstantCall, ruleConstantCallWith, callLink, linkPush]

/-- The linking Call pushes the next instruction's address before the spill (42_constant.md R123). -/
theorem ruleConstantCallWith_pushNextPc (const : Word) (s : State) :
    ruleConstantCallWith .pushNextPc const s = jumps const (State.spill s.belt 16 (s.stackPush (s.pc + 2))) := by
  simp only [ruleConstantCallWith, linkPush]

/-- The default Call answers the spilled state at the constant. -/
theorem exec_constantCall (const : Word) (s : State) :
    exec (.constantCall const) s = .next ((State.spill s.belt 16 s).setPc const) := by
  rw [exec_eq_complete, show execute (.constantCall const) s = ruleConstantCall const s from rfl, ruleConstantCall_eq]
  exact rfl

/-- What a Ret can do: jump to the seventeenth word, with the `n` newest values of the old belt in front of the popped
words, sp up by 17, memory and pc as before (43_immediate.md R133). -/
theorem returnWith_spec {n : Nat} (hn : n ≤ 16) (s : State) :
    (returnWith n s).result = .jump (s.memRead (s.sp + 17)) ∧
      (∀ i, i < n → (returnWith n s).state.peek i = s.peek i) ∧
        (∀ j, n + j < 16 → (returnWith n s).state.peek (n + j) = s.memRead (s.sp + BitVec.ofNat 16 (j + 1))) ∧
          (returnWith n s).state.sp = s.sp + 17 ∧ (returnWith n s).state.mem = s.mem ∧
            (returnWith n s).state.pc = s.pc := by
  obtain ⟨-, hw, hsp, hmem, -, hpc⟩ := State.popMany_spec 16 s
  obtain ⟨hfront, hback⟩ := State.repush_peek s.belt n
    ((State.popMany 16 s).2.loadBelt (fun k => (State.popMany 16 s).1.getD k 0)) hn
  have hsp17 : s.sp + 16#16 + 1#16 = s.sp + 17#16 := by bv_omega
  refine ⟨?_, hfront, fun j hj => ?_, ?_, ?_, ?_⟩
  · simp [returnWith, jumps, State.memRead, hsp, hmem, hsp17]
  · exact (hback j hj).trans ((State.peek_loadBelt _ _ (by omega)).trans (hw j (by omega)))
  · simp [returnWith, jumps, hsp, hsp17]
  · simp [returnWith, jumps, hmem]
  · simp [returnWith, jumps, hpc]

/-- A Ret answers the state its rule leaves, at the seventeenth word. -/
theorem exec_immediateRet (pos : BeltPos) (imm : Imm4) (s : State) :
    exec (.immediateRet pos imm) s = .next ((returnWith imm.toNat s).state.setPc (s.memRead (s.sp + 17))) := by
  obtain ⟨hr, -⟩ := returnWith_spec (n := imm.toNat) (by omega) s
  rw [exec_eq_complete, show execute (.immediateRet pos imm) s = returnWith imm.toNat s from rfl]
  simp only [complete, updatePc, hr, toOutcome]

end Sys2Proof.Machine
end

