-- ==== Sys2Proof/Laws/PerInstr.lean ====
section
/-! SUPPORT. What holds of every instruction as syntax, one lemma per constructor. -/

namespace Sys2Proof.Laws

/-- The encoding has the length its main opcode tells: two words for classes 1, 2 and 5, one word otherwise, and the main
opcode is the class's own under any SUBOP_MAP (30_encoding.md R60, R64). -/
def EncodedLength.Statement (i : Instr) : Prop :=
  ∀ m : SubopMap, mainField (encodeWith m i).1 = i.opClass.main ∧
    1 + (encodeWith m i).2.toList.length = i.words

theorem EncodedLength.beltConstantAnd (pos : BeltPos) (const : Word) : EncodedLength.Statement (.beltConstantAnd pos const) :=
  fun _ => ⟨mainField_firstWord _ _ _ _, rfl⟩

theorem EncodedLength.beltConstantOr (pos : BeltPos) (const : Word) : EncodedLength.Statement (.beltConstantOr pos const) :=
  fun _ => ⟨mainField_firstWord _ _ _ _, rfl⟩

theorem EncodedLength.beltConstantXor (pos : BeltPos) (const : Word) : EncodedLength.Statement (.beltConstantXor pos const) :=
  fun _ => ⟨mainField_firstWord _ _ _ _, rfl⟩

theorem EncodedLength.constantLoadFromMemory (const : Word) : EncodedLength.Statement (.constantLoadFromMemory const) :=
  fun _ => ⟨mainField_firstWord _ _ _ _, rfl⟩

theorem EncodedLength.constantLoadConstant (const : Word) : EncodedLength.Statement (.constantLoadConstant const) :=
  fun _ => ⟨mainField_firstWord _ _ _ _, rfl⟩

theorem EncodedLength.constantCall (const : Word) : EncodedLength.Statement (.constantCall const) :=
  fun _ => ⟨mainField_firstWord _ _ _ _, rfl⟩

theorem EncodedLength.constantJump (const : Word) : EncodedLength.Statement (.constantJump const) :=
  fun _ => ⟨mainField_firstWord _ _ _ _, rfl⟩

theorem EncodedLength.immediateShiftLeft (pos : BeltPos) (imm : Imm4) : EncodedLength.Statement (.immediateShiftLeft pos imm) :=
  fun _ => ⟨mainField_firstWord _ _ _ _, rfl⟩

theorem EncodedLength.immediateShiftRight (pos : BeltPos) (imm : Imm4) : EncodedLength.Statement (.immediateShiftRight pos imm) :=
  fun _ => ⟨mainField_firstWord _ _ _ _, rfl⟩

theorem EncodedLength.immediateRet (pos : BeltPos) (imm : Imm4) : EncodedLength.Statement (.immediateRet pos imm) :=
  fun _ => ⟨mainField_firstWord _ _ _ _, rfl⟩

theorem EncodedLength.registerAdd (pos1 : BeltPos) (pos2 : BeltPos) : EncodedLength.Statement (.registerAdd pos1 pos2) :=
  fun _ => ⟨mainField_firstWord _ _ _ _, rfl⟩

theorem EncodedLength.registerSub (pos1 : BeltPos) (pos2 : BeltPos) : EncodedLength.Statement (.registerSub pos1 pos2) :=
  fun _ => ⟨mainField_firstWord _ _ _ _, rfl⟩

theorem EncodedLength.registerMul (pos1 : BeltPos) (pos2 : BeltPos) : EncodedLength.Statement (.registerMul pos1 pos2) :=
  fun _ => ⟨mainField_firstWord _ _ _ _, rfl⟩

theorem EncodedLength.registerDiv (pos1 : BeltPos) (pos2 : BeltPos) : EncodedLength.Statement (.registerDiv pos1 pos2) :=
  fun _ => ⟨mainField_firstWord _ _ _ _, rfl⟩

theorem EncodedLength.registerAnd (pos1 : BeltPos) (pos2 : BeltPos) : EncodedLength.Statement (.registerAnd pos1 pos2) :=
  fun _ => ⟨mainField_firstWord _ _ _ _, rfl⟩

theorem EncodedLength.registerOr (pos1 : BeltPos) (pos2 : BeltPos) : EncodedLength.Statement (.registerOr pos1 pos2) :=
  fun _ => ⟨mainField_firstWord _ _ _ _, rfl⟩

theorem EncodedLength.registerXor (pos1 : BeltPos) (pos2 : BeltPos) : EncodedLength.Statement (.registerXor pos1 pos2) :=
  fun _ => ⟨mainField_firstWord _ _ _ _, rfl⟩

theorem EncodedLength.registerShiftLeft (pos1 : BeltPos) (pos2 : BeltPos) : EncodedLength.Statement (.registerShiftLeft pos1 pos2) :=
  fun _ => ⟨mainField_firstWord _ _ _ _, rfl⟩

theorem EncodedLength.registerShiftRight (pos1 : BeltPos) (pos2 : BeltPos) : EncodedLength.Statement (.registerShiftRight pos1 pos2) :=
  fun _ => ⟨mainField_firstWord _ _ _ _, rfl⟩

theorem EncodedLength.registerSave (pos1 : BeltPos) (pos2 : BeltPos) : EncodedLength.Statement (.registerSave pos1 pos2) :=
  fun _ => ⟨mainField_firstWord _ _ _ _, rfl⟩

theorem EncodedLength.branchLt (pos1 : BeltPos) (pos2 : BeltPos) (addr : Word) : EncodedLength.Statement (.branchLt pos1 pos2 addr) :=
  fun _ => ⟨mainField_firstWord _ _ _ _, rfl⟩

theorem EncodedLength.branchLe (pos1 : BeltPos) (pos2 : BeltPos) (addr : Word) : EncodedLength.Statement (.branchLe pos1 pos2 addr) :=
  fun _ => ⟨mainField_firstWord _ _ _ _, rfl⟩

theorem EncodedLength.branchEq (pos1 : BeltPos) (pos2 : BeltPos) (addr : Word) : EncodedLength.Statement (.branchEq pos1 pos2 addr) :=
  fun _ => ⟨mainField_firstWord _ _ _ _, rfl⟩

theorem EncodedLength.unaryLoad (pos : BeltPos) : EncodedLength.Statement (.unaryLoad pos) :=
  fun _ => ⟨mainField_firstWord _ _ _ _, rfl⟩

theorem EncodedLength.unaryJump (pos : BeltPos) : EncodedLength.Statement (.unaryJump pos) :=
  fun _ => ⟨mainField_firstWord _ _ _ _, rfl⟩

theorem EncodedLength.unaryPush (pos : BeltPos) : EncodedLength.Statement (.unaryPush pos) :=
  fun _ => ⟨mainField_firstWord _ _ _ _, rfl⟩

theorem EncodedLength.zeroNop : EncodedLength.Statement (.zeroNop) :=
  fun _ => ⟨mainField_firstWord _ _ _ _, rfl⟩

theorem EncodedLength.zeroPop : EncodedLength.Statement (.zeroPop) :=
  fun _ => ⟨mainField_firstWord _ _ _ _, rfl⟩

theorem EncodedLength.zeroBreak : EncodedLength.Statement (.zeroBreak) :=
  fun _ => ⟨mainField_firstWord _ _ _ _, rfl⟩

end Sys2Proof.Laws
end

