-- ==== Sys2Proof/Tests/Slice0.lean ====
section
/-! SUPPORT. Tests: words written out from the spec's encodings, the refusals of WellFormed, the spec's test vectors
(spec/95_test_vectors.md, cited by section) one or two per instruction, and a witness for the hypotheses of every
statement that has some. -/

namespace Sys2Proof.Tests

open Sys2Proof Sys2Proof.Machine Sys2Proof.Claims

/-! ### WellFormed: an ill-formed term for each check -/

theorem test_refuses_beltConstant_position : (SourceInstr.beltConstant .and 16 (.constant 0)).wellFormed = false := by decide
theorem test_refuses_beltConstant_constant : (SourceInstr.beltConstant .and 15 (.constant 65536)).wellFormed = false := by decide
theorem test_refuses_beltConstant_label : (SourceInstr.beltConstant .or 0 (.label "loop")).wellFormed = false := by decide
theorem test_refuses_constant_range : (SourceInstr.constant .loadConstant (.constant 65536)).wellFormed = false := by decide
theorem test_refuses_constant_label : (SourceInstr.constant .call (.label "f")).wellFormed = false := by decide
theorem test_refuses_immediate_position : (SourceInstr.immediate .shiftLeft 16 0).wellFormed = false := by decide
theorem test_refuses_ret_of_sixteen : (SourceInstr.immediate .ret 0 16).wellFormed = false := by decide
theorem test_refuses_register_first : (SourceInstr.register .add 16 0).wellFormed = false := by decide
theorem test_refuses_register_second : (SourceInstr.register .add 0 16).wellFormed = false := by decide
theorem test_refuses_branch_first : (SourceInstr.branch .eq 16 0 (.constant 0)).wellFormed = false := by decide
theorem test_refuses_branch_second : (SourceInstr.branch .eq 0 16 (.constant 0)).wellFormed = false := by decide
theorem test_refuses_branch_address : (SourceInstr.branch .eq 0 0 (.constant 65536)).wellFormed = false := by decide
theorem test_refuses_branch_label : (SourceInstr.branch .eq 0 0 (.label "loop")).wellFormed = false := by decide
theorem test_refuses_unary_position : (SourceInstr.unary .push 16).wellFormed = false := by decide
theorem test_accepts_boundary : (SourceInstr.branch .lt 15 15 (.constant 65535)).wellFormed = true := by decide

theorem test_encodeSource_names_the_refusal :
    (encodeSource (.constant .jump (.label "x")) = .error .unresolvedLabel) ∧
      (encodeSource (.immediate .ret 0 16) = .error .fieldOutOfRange) := ⟨rfl, rfl⟩

/-- A map that gives two operations of one class one code is refused, class by class. -/
theorem test_refuses_colliding_maps :
    ¬ SubopMap.Injective { subopMap with beltConstant := fun _ => 0 } ∧
    ¬ SubopMap.Injective { subopMap with constant := fun _ => 0 } ∧
    ¬ SubopMap.Injective { subopMap with immediate := fun _ => 0 } ∧
    ¬ SubopMap.Injective { subopMap with register := fun _ => 0 } ∧
    ¬ SubopMap.Injective { subopMap with branch := fun _ => 0 } ∧
    ¬ SubopMap.Injective { subopMap with unary := fun _ => 0 } ∧
    ¬ SubopMap.Injective { subopMap with zero := fun _ => 0 } := by
  refine ⟨?_, ?_, ?_, ?_, ?_, ?_, ?_⟩ <;> decide

/-! ### Decoding: every constructor's word, bit by bit from 30_encoding.md R79 (main, sub, op1, op2) -/

theorem test_decode_beltConstant :
    decode 0b0001000011110000#16 0x1234#16 = some (.beltConstantAnd 15 0x1234, 2) ∧
    decode 0b0001000100110000#16 0x1234#16 = some (.beltConstantOr 3 0x1234, 2) ∧
    decode 0b0001001000110000#16 0x1234#16 = some (.beltConstantXor 3 0x1234, 2) := by decide

theorem test_decode_constant :
    decode 0b0010000000000000#16 0x1234#16 = some (.constantLoadFromMemory 0x1234, 2) ∧
    decode 0b0010000100000000#16 0x1234#16 = some (.constantLoadConstant 0x1234, 2) ∧
    decode 0b0010001000000000#16 0x1234#16 = some (.constantCall 0x1234, 2) ∧
    decode 0b0010001100000000#16 0x1234#16 = some (.constantJump 0x1234, 2) := by decide

theorem test_decode_immediate :
    decode 0b0011000001110010#16 0x1234#16 = some (.immediateShiftLeft 7 2, 1) ∧
    decode 0b0011000101110010#16 0x1234#16 = some (.immediateShiftRight 7 2, 1) ∧
    decode 0b0011001001110010#16 0x1234#16 = some (.immediateRet 7 2, 1) := by decide

theorem test_decode_register :
    decode 0b0100000000000001#16 0x1234#16 = some (.registerAdd 0 1, 1) ∧
    decode 0b0100000100010000#16 0x1234#16 = some (.registerSub 1 0, 1) ∧
    decode 0b0100001010100101#16 0x1234#16 = some (.registerMul 10 5, 1) ∧
    decode 0b0100001110100101#16 0x1234#16 = some (.registerDiv 10 5, 1) ∧
    decode 0b0100010010100101#16 0x1234#16 = some (.registerAnd 10 5, 1) ∧
    decode 0b0100010110100101#16 0x1234#16 = some (.registerOr 10 5, 1) ∧
    decode 0b0100011010100101#16 0x1234#16 = some (.registerXor 10 5, 1) ∧
    decode 0b0100011110100101#16 0x1234#16 = some (.registerShiftLeft 10 5, 1) ∧
    decode 0b0100100010100101#16 0x1234#16 = some (.registerShiftRight 10 5, 1) ∧
    decode 0b0100100111111110#16 0x1234#16 = some (.registerSave 15 14, 1) := by decide

theorem test_decode_branch :
    decode 0b0101000010100101#16 0x1234#16 = some (.branchLt 10 5 0x1234, 2) ∧
    decode 0b0101000110100101#16 0x1234#16 = some (.branchLe 10 5 0x1234, 2) ∧
    decode 0b0101001010100101#16 0x1234#16 = some (.branchEq 10 5 0x1234, 2) := by decide

theorem test_decode_unary :
    decode 0b0110000010100000#16 0x1234#16 = some (.unaryLoad 10, 1) ∧
    decode 0b0110000110100000#16 0x1234#16 = some (.unaryJump 10, 1) ∧
    decode 0b0110001010100000#16 0x1234#16 = some (.unaryPush 10, 1) := by decide

theorem test_decode_zero :
    decode 0b0111000000000000#16 0x1234#16 = some (.zeroNop, 1) ∧
    decode 0b0111000100000000#16 0x1234#16 = some (.zeroPop, 1) ∧
    decode 0b0111001000000000#16 0x1234#16 = some (.zeroBreak, 1) := by decide

/-- The illegal words of 95_test_vectors.md section 2.2, by the reason it names. -/
theorem test_decode_illegal :
    [0x0000#16, 0x8000#16, 0xFFFF#16, 0x0FFF#16].map (fun w => decodeNamed subopMap w 0) =
      List.replicate 4 (.error .illegalMain) ∧
    [0x1300#16, 0x2400#16, 0x3300#16, 0x4A00#16, 0x4F12#16, 0x5300#16, 0x6300#16, 0x7300#16].map
      (fun w => decodeNamed subopMap w 0) = List.replicate 8 (.error .reservedSub) ∧
    [0x1001#16, 0x2010#16, 0x2101#16, 0x6001#16, 0x7001#16, 0x7210#16].map (fun w => decodeNamed subopMap w 0) =
      List.replicate 6 (.error .unusedNibble) := ⟨rfl, rfl, rfl⟩

/-- 40_codec_and_step.md R96's examples. -/
theorem test_encode :
    encode (.constantLoadConstant 0x00FF) = (0x2100#16, some 0x00FF#16) ∧ encode .zeroBreak = (0x7200#16, none) := by decide

/-- 40_codec_and_step.md R95: no second word, no two-word instruction. -/
theorem test_decodeOptional :
    decodeOptional subopMap 0x1000#16 none = none ∧
      decodeOptional subopMap 0x4001#16 none = some (.registerAdd 0 1, 1) := by decide

/-- The host's numbering: the first word in bits 15..0, the second in bits 31..16. -/
theorem test_decodeTableWord :
    decodeTableWord 32 0x0F0F1000 = some (.beltConstantAnd 0 0x0F0F) ∧
      decodeTableWord 16 0x0F0F1000 = some (.beltConstantAnd 0 0x0000) ∧ decodeTableWord 16 0x0000 = none := by decide

/-! ### One step each: the vectors of 95_test_vectors.md section 2 -/

/-- The next state of an outcome, if there is one. -/
def next? : Host.Outcome State Fault Refusal → Option State
  | .next s => some s
  | .fault _ => none
  | .refused _ => none

/-- The fault of an outcome, if there is one. -/
def fault? : Host.Outcome State Fault Refusal → Option Fault
  | .next _ => none
  | .fault f => some f
  | .refused _ => none

/-- The start state of section 2: pc 0x0020, sp 0xFFFF, the belt's first positions and the instruction's words given. -/
def start (belt words : List Word) : State :=
  ((State.reset.loadBelt (fun k => belt.getD k 0)).setPc 0x0020#16).loadWordsAt 0x0020#16 words

/-- What one step from a start state makes of pc and of belt positions 0 and 1. -/
def pcAndFront (s : State) : Option (Word × Word × Word) := (next? (step s)).map (fun t => (t.pc, t.peek 0, t.peek 1))

/-- Section 2.3's start belt. -/
def belt23 : List Word := [0x00FF, 0x0003, 0x8001, 0xA5A5, 0, 0, 0, 0, 0, 0, 0, 0, 0, 0, 0, 0x1234]

theorem test_beltConstantAnd : pcAndFront (start belt23 [0x1000, 0x0F0F]) = some (0x0022, 0x000F, 0x00FF) := by decide
theorem test_beltConstantAnd_oldest : pcAndFront (start belt23 [0x10F0, 0xFF00]) = some (0x0022, 0x1200, 0x00FF) := by decide
theorem test_beltConstantOr : pcAndFront (start belt23 [0x1130, 0x0F00]) = some (0x0022, 0xAFA5, 0x00FF) := by decide
theorem test_beltConstantXor : pcAndFront (start belt23 [0x1230, 0xFFFF]) = some (0x0022, 0x5A5A, 0x00FF) := by decide

theorem test_constantLoadFromMemory :
    pcAndFront ((start belt23 [0x2000, 0x0100]).memWrite 0x0100 0xBEEF) = some (0x0022, 0xBEEF, 0x00FF) := by decide
theorem test_constantLoadFromMemory_own_word :
    pcAndFront (start belt23 [0x2000, 0x0020]) = some (0x0022, 0x2000, 0x00FF) := by decide
theorem test_constantLoadConstant : pcAndFront (start belt23 [0x2100, 0xFFFF]) = some (0x0022, 0xFFFF, 0x00FF) := by decide
theorem test_constantCall :
    (next? (step (start belt23 [0x2200, 0x0040]))).map (fun t =>
      (t.pc, t.sp, [0xFFFF, 0xFFFE, 0xFFF3, 0xFFF2, 0xFFF1, 0xFFF0, 0xFFEF].map t.memRead)) =
    some (0x0040, 0xFFEF, [0x1234, 0, 0xA5A5, 0x8001, 0x0003, 0x00FF, 0]) := by decide
theorem test_constantCall_wraps :
    (next? (step ((start belt23 [0x2200, 0x0040]).setSp 0x0007))).map (fun t =>
      (t.sp, [0x0007, 0x0000, 0xFFFC, 0xFFFB, 0xFFF8].map t.memRead)) =
    some (0xFFF7, [0x1234, 0, 0, 0xA5A5, 0x00FF]) := by decide
/-- Section 2.4's row under CALL_LINK = push_next_pc. -/
theorem test_constantCall_linking :
    (next? (complete 2 (ruleConstantCallWith .pushNextPc 0x0040 (start belt23 [])))).map (fun t =>
      (t.pc, t.sp, [0xFFFF, 0xFFFE, 0xFFF2, 0xFFF1, 0xFFF0, 0xFFEF].map t.memRead)) =
    some (0x0040, 0xFFEE, [0x0022, 0x1234, 0xA5A5, 0x8001, 0x0003, 0x00FF]) := by decide
theorem test_constantJump : pcAndFront (start belt23 [0x2300, 0x0020]) = some (0x0020, 0x00FF, 0x0003) := by decide

theorem test_immediateShiftLeft : pcAndFront (start belt23 [0x3021]) = some (0x0021, 0x0002, 0x00FF) := by decide
theorem test_immediateShiftLeft_most : pcAndFront (start belt23 [0x302F]) = some (0x0021, 0x8000, 0x00FF) := by decide
theorem test_immediateShiftRight : pcAndFront (start belt23 [0x3121]) = some (0x0021, 0x4000, 0x00FF) := by decide
theorem test_immediateShiftRight_most : pcAndFront (start belt23 [0x312F]) = some (0x0021, 0x0001, 0x00FF) := by decide

/-- Section 2.5's start for Ret: callee belt 00C0 + i, caller belt 1000 + k above sp FFEE, return address 0123. -/
def retStart (word : Word) : State :=
  (((start ((List.range 16).map (fun i => BitVec.ofNat 16 (0x00C0 + i))) [word]).loadWordsAt 0xFFEF#16
    ((List.range 16).map (fun i => BitVec.ofNat 16 (0x1000 + i)))).memWrite 0xFFFF#16 0x0123#16).setSp 0xFFEE#16

theorem test_immediateRet_none :
    (next? (step (retStart 0x3200))).map (fun t => (t.pc, t.sp, [0, 1, 2, 15].map t.peek)) =
    some (0x0123, 0xFFFF, [0x1000, 0x1001, 0x1002, 0x100F]) := by decide
theorem test_immediateRet_two :
    (next? (step (retStart 0x3272))).map (fun t => (t.pc, t.sp, [0, 1, 2, 3, 15].map t.peek)) =
    some (0x0123, 0xFFFF, [0x00C0, 0x00C1, 0x1000, 0x1001, 0x100D]) := by decide

theorem test_registerAdd : pcAndFront (start [0xFFFF, 0x0001] [0x4001]) = some (0x0021, 0x0000, 0xFFFF) := by decide
theorem test_registerAdd_oldest :
    pcAndFront (start [9, 0, 0, 0, 0, 0, 0, 0, 0, 0, 0, 0, 0, 0, 2, 1] [0x40FE]) = some (0x0021, 3, 9) := by decide
theorem test_registerSub : pcAndFront (start [0x0003, 0x000A] [0x4110]) = some (0x0021, 0x0007, 0x0003) := by decide
theorem test_registerSub_wraps : pcAndFront (start [0x0000, 0x0001] [0x4101]) = some (0x0021, 0xFFFF, 0x0000) := by decide
theorem test_registerMul : pcAndFront (start [0x012C, 0x012C] [0x4201]) = some (0x0021, 0x5F90, 0x012C) := by decide
theorem test_registerDiv : pcAndFront (start [0xFFFE, 0x0002] [0x4301]) = some (0x0021, 0x7FFF, 0xFFFE) := by decide
theorem test_registerDiv_by_zero : fault? (step (start [0x0000, 0x0000] [0x4301])) = some .fail := by decide
theorem test_registerAnd : pcAndFront (start [0xF0F0, 0xFF00] [0x4401]) = some (0x0021, 0xF000, 0xF0F0) := by decide
theorem test_registerOr : pcAndFront (start [0xF0F0, 0xFF00] [0x4501]) = some (0x0021, 0xFFF0, 0xF0F0) := by decide
theorem test_registerXor : pcAndFront (start [0xF0F0, 0xFF00] [0x4601]) = some (0x0021, 0x0FF0, 0xF0F0) := by decide
theorem test_registerShiftLeft : pcAndFront (start [0x8001, 0x0001] [0x4701]) = some (0x0021, 0x0002, 0x8001) := by decide
theorem test_registerShiftLeft_sixteen :
    pcAndFront (start [0x0001, 0x0010] [0x4701]) = some (0x0021, 0x0001, 0x0001) ∧
      shiftByWordWith .zeroWhenGe16 shiftLeftBy 0x0001#16 0x0010#16 = 0 := by decide
theorem test_registerShiftRight : pcAndFront (start [0xFF00, 0xFFFF] [0x4801]) = some (0x0021, 0x0001, 0xFF00) := by decide
theorem test_registerShiftRight_logical : pcAndFront (start [0x8001, 0x0001] [0x4801]) = some (0x0021, 0x4000, 0x8001) := by decide
theorem test_registerSave :
    (next? (step (start [0xCAFE, 0x0200] [0x4901]))).map (fun t => (t.pc, t.memRead 0x0200, t.peek 0)) =
    some (0x0021, 0xCAFE, 0xCAFE) := by decide

theorem test_branchLt : (pcAndFront (start [0x7FFF, 0xFFFF] [0x5001, 0x0100])).map Prod.fst = some 0x0100 := by decide
theorem test_branchLt_not : (pcAndFront (start [0xFFFF, 0x0000] [0x5001, 0x0100])).map Prod.fst = some 0x0022 := by decide
theorem test_branchLe : (pcAndFront (start [0x0003, 0x0003] [0x5101, 0x0100])).map Prod.fst = some 0x0100 := by decide
theorem test_branchLe_not : (pcAndFront (start [0x0004, 0x0003] [0x5101, 0x0100])).map Prod.fst = some 0x0022 := by decide
theorem test_branchEq : (pcAndFront (start [0x0005, 0x0005] [0x5201, 0x0100])).map Prod.fst = some 0x0100 := by decide
theorem test_branchEq_not : (pcAndFront (start [0x8000, 0x0000] [0x5201, 0x0100])).map Prod.fst = some 0x0022 := by decide

theorem test_unaryLoad :
    pcAndFront ((start [0x0100] [0x6000]).memWrite 0x0100 0x002A) = some (0x0021, 0x002A, 0x0100) := by decide
theorem test_unaryJump : pcAndFront (start [0x0001, 0x0002, 0x0040] [0x6120]) = some (0x0040, 0x0001, 0x0002) := by decide
theorem test_unaryPush :
    (next? (step (start [0x0009] [0x6200]))).map (fun t => (t.pc, t.sp, t.memRead 0xFFFF, t.peek 0)) =
    some (0x0021, 0xFFFE, 0x0009, 0x0009) := by decide
theorem test_unaryPush_wraps :
    (next? (step ((start [1, 2, 3, 0xABCD] [0x6230]).setSp 0x0000))).map (fun t => (t.sp, t.memRead 0x0000)) =
    some (0xFFFF, 0xABCD) := by decide

theorem test_zeroNop : pcAndFront (start [0x0009] [0x7000]) = some (0x0021, 0x0009, 0x0000) := by decide
theorem test_zeroNop_wraps :
    pcAndFront ((State.reset.setPc 0xFFFF).memWrite 0xFFFF 0x7000) = some (0x0000, 0, 0) := by decide
theorem test_zeroPop :
    (next? (step (((start [0x0001] [0x7100]).memWrite 0xFFFF 0x0009).setSp 0xFFFE))).map (fun t =>
      (t.pc, t.sp, t.memRead 0xFFFF, [0, 1].map t.peek)) = some (0x0021, 0xFFFF, 0x0009, [0x0009, 0x0001]) := by decide
theorem test_zeroPop_wraps :
    (next? (step ((start [] [0x7100]).memWrite 0x0000 0x2100))).map (fun t => (t.sp, t.peek 0)) =
    some (0x0000, 0x2100) := by decide
theorem test_zeroBreak : fault? (step (start [0x0009] [0x7200])) = some .stop := by decide

/-- Section 2.9: from reset with nothing loaded the step is Stop and changes nothing. -/
theorem test_reset_stops : stepWithResult State.reset = ⟨.stop, State.reset⟩ := by decide

/-- Section 2.3's last row: a two-word instruction across the end of memory. -/
theorem test_fetch_wraps :
    pcAndFront ((((start belt23 []).setPc 0xFFFF).memWrite 0xFFFF 0x1110).memWrite 0x0000 0x8000) =
    some (0x0001, 0x8003, 0x00FF) := by decide

/-- What the host asks: a table word placed after reset is the first instruction run. -/
theorem test_withFetchWord :
    pcAndFront (State.reset.withFetchWord 32 0x00AB2100) = some (0x0002, 0x00AB, 0) ∧
      pcAndFront (State.reset.withFetchWord 16 0x2100) = some (0x0002, 0, 0) ∧
      fault? (step (State.reset.withFetchWord 16 0x4300)) = some .fail := by decide

/-- The signed reading of decision D3, which the default machine does not use. -/
theorem test_signed_reading :
    divWordsWith .signed 0x8000 0xFFFF = 0x8000 ∧ divWordsWith .signed 0xFFFE 0x0002 = 0xFFFF ∧
      shiftRightWith .signed 0x8001 1 = 0xC000 ∧ ltWordsWith .signed 0xFFFF 0x0000 = true ∧
      leWordsWith .signed 0x7FFF 0xFFFF = false := by decide

/-- Section 1, S3: seventeen pushes on the ring buffer. -/
theorem test_ring_rotates :
    ((List.range 17).foldl (fun r i => r.push (BitVec.ofNat 16 (i + 1))) Ring.reset).peek 16 = 0x0011 ∧
      ((List.range 17).foldl (fun r i => r.push (BitVec.ofNat 16 (i + 1))) Ring.reset).peek 15 = 0x0002 := by decide

theorem test_result_codes : [StepResult.cont, .jump 5, .stop, .fail].map StepResult.code = [0, 1, 2, 3] := by decide

/-- 60_exceptions.md R201: a driver's run is safe through the halt at the zero word after the program, and not through a
division by zero. -/
theorem test_safeFor :
    safeFor 3 (State.reset.loadProgram (programWords [.constantLoadConstant 0x00FF, .beltConstantAnd 0 0x0F0F])) = true ∧
      safeFor 1 (State.reset.loadProgram (programWords [.registerDiv 0 1])) = false := by decide

/-! ### Witnesses: a concrete state and operands for the hypotheses of each statement that has some -/

/-- A state with a canonical memory that is not empty: Save of CAFE to 0200, its next step a next state. -/
def saving : State := start [0xCAFE, 0x0200] [0x4901]

/-- The witness of the four statements whose only hypothesis is the canonical memory: MemoryWriteSetsOneWordAndNothingElse,
ReadReturnsTheLatestWrite, StackPushWritesThenDecrements and PopAfterPushCopiesTheValue. -/
theorem witness_canonical_memory : saving.mem.wf = true ∧ saving.mem ≠ [] := by decide

theorem witness_EveryStepKeepsMemoryCanonical : ∃ t, saving.mem.wf = true ∧ step saving = .next t := ⟨_, by decide, rfl⟩

theorem witness_CanonicalMemoriesThatReadAlikeAreEqual :
    Memory.wf [(0, 1#16), (65535, 2#16)] = true ∧ Memory.wf [(0, 1#16), (65535, 2#16)] = true ∧
      ∀ a : Word, Memory.read [(0, 1#16), (65535, 2#16)] a = Memory.read [(0, 1#16), (65535, 2#16)] a :=
  ⟨by decide, by decide, fun _ => rfl⟩

theorem witness_PopsReturnPushedWordsInReverse : saving.mem.wf = true ∧ [1#16, 2#16].length ≤ 65536 := by decide

theorem witness_BeltChangesOnlyByPushes :
    (∃ t, exec (.immediateRet 0 15) saving = .next t) ∧ (∃ t, exec .zeroNop saving = .next t) ∧
      ∃ t, exec (.registerAdd 0 1) saving = .next t :=
  ⟨⟨_, exec_immediateRet 0 15 saving⟩, ⟨_, rfl⟩, ⟨_, rfl⟩⟩

theorem witness_BeltRotatesWithPushes :
    (15 < 16 ∧ 15 < (List.replicate 17 5#16).length) ∧ [5#16].length + 14 < 16 := by decide

theorem witness_ConstantClassLoadsAndJumps : (0#4 ≠ 0 ∨ 1#4 ≠ 0) ∧ (1#4 ≠ 0 ∨ 0#4 ≠ 0) := by decide

theorem witness_CallSpillsTheBelt :
    saving.mem.wf = true ∧ 0 < 16 ∧ 15 < 16 ∧ ∀ i : Nat, i < 16 → 0x0100#16 ≠ spillAddress saving.sp i := by decide

theorem witness_CallWithLinkReturnsBehindTheCall :
    saving.mem.wf = true ∧ 0x0100#16 ≠ saving.sp ∧ ∀ i : Nat, i < 16 → 0x0100#16 ≠ spillAddress (saving.sp - 1) i := by
  decide

theorem witness_ImmediateClassDecodesAndCompletes : subopMap.Injective ∧ 14 < (15#4).toNat := by decide

theorem witness_RetRestoresTheBeltAndReturns : 14 < (15#4).toNat ∧ (15#4).toNat + 0 < 16 ∧ (0#4).toNat + 15 < 16 := by decide

theorem witness_CallThenRetRoundTrip :
    ∃ s1 s2 u : State, saving.mem.wf = true ∧ exec (.unaryPush 0) saving = .next s1 ∧
      exec (.constantCall 0x0100) s1 = .next s2 ∧ u.sp = s2.sp ∧
      ∀ j : Nat, 1 ≤ j → j ≤ 17 → u.memRead (s2.sp + BitVec.ofNat 16 j) = s2.memRead (s2.sp + BitVec.ofNat 16 j) :=
  ⟨_, _, _, by decide, rfl, exec_constantCall _ _, rfl, fun _ _ _ => rfl⟩

theorem witness_RegisterDivPushesQuotientOrFails :
    (start [7, 1] [0x4301]).peek (1#4).toNat ≠ 0 ∧ (start [7, 0] [0x4301]).peek (1#4).toNat = 0 := by decide

theorem witness_RegisterShiftsReduceTheAmount : 16 ≤ (16#16).toNat ∧ (15#16).toNat < 16 := by decide

theorem witness_RegisterSaveStoresOneWord : saving.mem.wf = true ∧ 0x0201#16 ≠ saving.peek (1#4).toNat := by decide

theorem witness_BranchesJumpOrFallThrough :
    ((start [3, 4] []).peek 0).toNat < ((start [3, 4] []).peek 1).toNat ∧
      ¬ ((start [4, 4] []).peek 0).toNat < ((start [4, 4] []).peek 1).toNat ∧
      ((start [4, 4] []).peek 0).toNat ≤ ((start [4, 4] []).peek 1).toNat ∧
      ¬ ((start [5, 4] []).peek 0).toNat ≤ ((start [5, 4] []).peek 1).toNat ∧
      ((start [4, 4] []).peek 0).toNat = ((start [4, 4] []).peek 1).toNat ∧
      ¬ ((start [5, 4] []).peek 0).toNat = ((start [5, 4] []).peek 1).toNat := by decide

theorem witness_UnaryClassUsesBeltValue : saving.mem.wf = true ∧ 0xFFFE#16 ≠ saving.sp ∧ (1#4 : BitVec 4) ≠ 0 := by decide

theorem witness_ZeroClassNopPopBreak :
    (0#4 ≠ 0 ∨ 1#4 ≠ 0) ∧ (1#4 ≠ 0 ∨ 0#4 ≠ 0) ∧ mainField 0x7200#16 = 7 ∧ mainField 0x7300#16 = 7 := by decide

theorem witness_StepRunsTheDecodedInstruction :
    decode (saving.memRead saving.pc) (saving.memRead (saving.pc + 1)) = some (.registerSave 0 1, 1) ∧
      decode (State.reset.memRead State.reset.pc) (State.reset.memRead (State.reset.pc + 1)) = none := by decide

theorem witness_DecodeFailureStopsWithoutChange :
    decode (State.reset.memRead State.reset.pc) (State.reset.memRead (State.reset.pc + 1)) = none := by decide

/-- One state for each of the four results of a step. -/
theorem witness_PcIsUpdatedOnceFromTheResult :
    saving.mem.wf = true ∧ decode saving.fetch.1 saving.fetch.2 = some (.registerSave 0 1, 1) ∧
      (stepWithResult saving).result = .cont ∧ (stepWithResult (start [] [0x2300, 0x0004])).result = .jump 0x0004 ∧
      (stepWithResult (start [] [0x7200])).result = .stop ∧ (stepWithResult (start [] [0x4301])).result = .fail := by decide

theorem witness_FailHasOneCause :
    (stepWithResult (start [7, 0] [0x4301])).result = .fail ∧
      decode (start [7, 0] [0x4301]).fetch.1 (start [7, 0] [0x4301]).fetch.2 = some (.registerDiv 0 1, 1) := by decide

theorem witness_StopHasTwoCauses :
    fault? (step State.reset) = some .stop ∧ fault? (step (start [] [0x7200])) = some .stop ∧
      decode State.reset.fetch.1 State.reset.fetch.2 = none ∧
      decode (start [] [0x7200]).fetch.1 (start [] [0x7200]).fetch.2 = some (.zeroBreak, 1) := by decide

theorem witness_HaltRepeatsForEver :
    (stepWithResult State.reset).result = .stop ∧ (stepWithResult (start [7, 0] [0x4301])).result = .fail := by decide

theorem witness_OnlyStoringInstructionsChangeMemory :
    ∃ t, exec (.registerSave 0 1) saving = .next t ∧ 0x0201#16 ∉ storedTo (.registerSave 0 1) saving :=
  ⟨_, rfl, by decide⟩

theorem witness_OnlyStackInstructionsChangeSp : ∃ t, exec .zeroPop saving = .next t := ⟨_, rfl⟩

/-- Save over the next instruction: a word that decodes (Break) and one that does not. -/
theorem witness_StoredWordIsFetchedNext :
    let s := start [0x7200, 0x0021] [0x4901]
    let s' := start [0x0000, 0x0021] [0x4901]
    (s.mem.wf = true ∧ decode (s.memRead s.pc) (s.memRead (s.pc + 1)) = some (.registerSave 0 1, 1) ∧
      s.peek (1#4).toNat = s.pc + 1 ∧ decode (s.peek (0#4).toNat) (s.memRead (s.pc + 2)) = some (.zeroBreak, 1)) ∧
    (s'.mem.wf = true ∧ decode (s'.memRead s'.pc) (s'.memRead (s'.pc + 1)) = some (.registerSave 0 1, 1) ∧
      s'.peek (1#4).toNat = s'.pc + 1 ∧ decode (s'.peek (0#4).toNat) (s'.memRead (s'.pc + 2)) = none) := by decide

theorem witness_CodecRoundTrip :
    subopMap.Injective ∧ decodeWith subopMap 0x1000#16 0x0F0F#16 = some (.beltConstantAnd 0 0x0F0F, 2) ∧
      decodeWith subopMap 0x4001#16 0x0F0F#16 = some (.registerAdd 0 1, 1) ∧
      decodeWith subopMap 0x4001#16 0xF0F0#16 = some (.registerAdd 0 1, 1) := by decide

theorem witness_ValidFirstWordCounts : 8 ≤ (8#4).toNat ∧ 8 ≤ (15#4).toNat := by decide

theorem witness_LengthIsAFunctionOfTheMainOpcode :
    decodeWith subopMap 0x5001#16 0x0004#16 = some (.branchLt 0 1 0x0004, 2) ∧
      decodeWith subopMap 0x7000#16 0x0004#16 = some (.zeroNop, 1) := by decide

theorem witness_SecondWordIsTakenWholeOrIgnored :
    mainField 0x5001#16 = 5 ∧ decodeWith subopMap 0x5001#16 0xFFFF#16 = some (.branchLt 0 1 0xFFFF, 2) ∧
      ¬ (mainField 0x7000#16 = 1 ∨ mainField 0x7000#16 = 2 ∨ mainField 0x7000#16 = 5) := by decide

theorem witness_SourceEncoderRefusesAndNeverTruncates :
    encodeSource (.immediate .ret 15 15) = .ok (0x32FF#16, none) := rfl

theorem witness_LoadedProgramStandsAtZero :
    State.reset.mem.wf = true ∧ [1#16, 2#16].length ≤ 65536 ∧ 1 < [1#16, 2#16].length ∧
      [1#16, 2#16].length ≤ (2#16).toNat := by decide

theorem witness_SnapshotHoldsWhatItIsGiven : [1#16, 2#16].length ≤ 65536 ∧ 15 < 16 := by decide

end Sys2Proof.Tests
end

/-! The state after reset, item by item (10_state.md R33 to R36), and what it makes of the first fetch and of a first
stack push. -/

namespace Sys2Proof.Machine

@[simp] theorem State.reset_pc : State.reset.pc = 0x0000#16 := rfl
@[simp] theorem State.reset_sp : State.reset.sp = 0xFFFF#16 := rfl

theorem State.reset_belt : State.reset.belt = Vector.replicate 16 0x0000#16 := rfl

/-- Every belt position, the index wrapping, is a position of the all-zero belt (R24, R35). -/
@[simp] theorem State.peek_reset (i : Nat) : State.reset.peek i = 0x0000#16 := by
  simp only [State.peek, State.reset_belt, Belt.peek, Vector.getElem_replicate]

/-- Reset memory lists no address, so each reads as an unlisted one (R33; log entry 18). -/
@[simp] theorem State.memRead_reset (a : Word) : State.reset.memRead a = 0x0000#16 := rfl

theorem State.fetch_eq (s : State) : s.fetch = (s.memRead s.pc, s.memRead (s.pc + 1)) := rfl

/-- The stack grows downward, by one word per push, wherever sp does not wrap (R36; 20_memory.md R47). -/
theorem State.stackPush_sp_toNat {s : State} (hsp : s.sp ≠ 0) (v : Word) :
    (s.stackPush v).sp.toNat + 1 = s.sp.toNat := by
  rw [State.stackPush_sp]
  bv_omega

/-- Settles O1, item by item; the first fetch and the direction of the stack are the general rules for a fetch and for a
push at the reset values of pc and sp. -/
theorem resetHoldsTheStatedValues : Obligations.ResetHoldsTheStatedValues := by
  unfold Obligations.ResetHoldsTheStatedValues
  have sp_ne_zero : State.reset.sp ≠ 0 := by decide
  have first_fetch : State.reset.fetch = (State.reset.memRead 0x0000#16, State.reset.memRead 0x0001#16) := by
    rw [State.fetch_eq, State.reset_pc, show (0x0000#16 : Word) + 1 = 0x0001#16 from rfl]
  exact ⟨State.reset_pc, State.reset_sp, first_fetch, State.stackPush_sp_toNat sp_ne_zero, State.peek_reset,
    State.memRead_reset⟩

end Sys2Proof.Machine

/-! Memory read after write (20_memory.md R43, R49): one write at an address of any size, and a row of writes. -/

namespace Sys2Proof.Machine

open Sys2Proof.Claims

/-- An address wraps modulo 2^16 (20_memory.md R43). -/
theorem ofNat_word_eq_iff (c a : Nat) : BitVec.ofNat 16 c = BitVec.ofNat 16 a ↔ c % 65536 = a % 65536 := by
  rw [← BitVec.toNat_inj, BitVec.toNat_ofNat, BitVec.toNat_ofNat]

/-- Settles O5: read after write, its two addresses compared modulo 2^16; a write touches no other field of the state. -/
theorem memoryWriteSetsOneWordAndNothingElse : Obligations.MemoryWriteSetsOneWordAndNothingElse := by
  unfold Obligations.MemoryWriteSetsOneWordAndNothingElse
  intro s a v hwf
  have read_after_write (c : Nat) : (s.memWrite (BitVec.ofNat 16 a) v).memRead (BitVec.ofNat 16 c) =
      if c % 65536 = a % 65536 then v else s.memRead (BitVec.ofNat 16 c) := by
    simp only [State.memRead_memWrite hwf, ofNat_word_eq_iff]
  exact ⟨read_after_write, State.memWrite_belt _ _ _, State.memWrite_pc _ _ _, State.memWrite_sp _ _ _, State.fetch_eq s⟩

/-- The latest write of a row is its last. -/
theorem writes_concat (s : State) (ws : List (Word × Word)) (w : Word × Word) :
    writes s (ws ++ [w]) = (writes s ws).memWrite w.1 w.2 := by
  simp only [writes, List.foldl_append, List.foldl_cons, List.foldl_nil]

@[simp] theorem writes_pc (s : State) (ws : List (Word × Word)) : (writes s ws).pc = s.pc := by
  induction ws using List.reverseRecOn with
  | nil => rfl
  | append_singleton ws w ih => rw [writes_concat, State.memWrite_pc, ih]

theorem writes_wf {s : State} (hwf : s.mem.wf = true) (ws : List (Word × Word)) : (writes s ws).mem.wf = true := by
  induction ws using List.reverseRecOn with
  | nil => exact hwf
  | append_singleton ws w ih => rw [writes_concat]; exact State.memWrite_wf ih w.1 w.2

/-- A read after a row of writes, by induction from the latest write back: either it wrote the address, or the writes
before it decide. -/
theorem memRead_writes {s : State} (hwf : s.mem.wf = true) (ws : List (Word × Word)) (a : Word) :
    (writes s ws).memRead a = (ws.reverse.find? (fun w => w.1 == a)).elim (s.memRead a) Prod.snd := by
  induction ws using List.reverseRecOn with
  | nil => rfl
  | append_singleton ws w ih =>
    rw [writes_concat, State.memRead_memWrite (writes_wf hwf ws), List.reverse_concat]
    by_cases hw : w.1 = a
    · simp [hw]
    · simp [hw, Ne.symm hw, ih]

/-- Settles O6: the read is that of `memRead_writes`, and the fetch after the writes reads at the pc they left alone. -/
theorem readReturnsTheLatestWrite : Obligations.ReadReturnsTheLatestWrite := by
  unfold Obligations.ReadReturnsTheLatestWrite
  intro s ws hwf
  constructor
  · intro a
    rw [memRead_writes hwf]
    cases ws.reverse.find? (fun w => w.1 == a) with
    | none => rfl
    | some w => rfl
  · rw [State.fetch_eq, writes_pc]

end Sys2Proof.Machine

/-! What a first word decodes to, class by class (40_codec_and_step.md R92), and from it the length (30_encoding.md R60) and
the part the second word plays (30_encoding.md R63). -/

namespace Sys2Proof

open Sys2Proof.Machine

/-- A main opcode selects a class exactly when it is the class's own (30_encoding.md R64). -/
theorem OpClass.ofMain_eq_some_iff {main : BitVec 4} {c : OpClass} : OpClass.ofMain main = some c ↔ main = c.main := by
  revert main
  cases c <;> decide

theorem OpClass.words_eq_ite (c : OpClass) : c.words = if c.main = 1 ∨ c.main = 2 ∨ c.main = 5 then 2 else 1 := by
  cases c <;> rfl

/-- `DecodesTo m w0 w1 c i`: read as a word of class `c`, the first word `w0` is legal and, followed by `w1`, stands for
`i`. One constructor per class, with the class's own condition on the nibbles it does not use (40_codec_and_step.md R92). -/
inductive DecodesTo (m : SubopMap) (w0 w1 : Word) : OpClass → Instr → Prop where
  | beltConstant (op : BeltConstantOp) (hop : subopOf m.beltConstant (subField w0) BeltConstantOp.all = .ok op)
      (h2 : op2Field w0 = 0) : DecodesTo m w0 w1 .beltConstant (Instr.ofBeltConstant op (op1Field w0) w1)
  | constant (op : ConstantOp) (hop : subopOf m.constant (subField w0) ConstantOp.all = .ok op)
      (h12 : op1Field w0 = 0 ∧ op2Field w0 = 0) : DecodesTo m w0 w1 .constant (Instr.ofConstant op w1)
  | immediate (op : ImmediateOp) (hop : subopOf m.immediate (subField w0) ImmediateOp.all = .ok op) :
      DecodesTo m w0 w1 .immediate (Instr.ofImmediate op (op1Field w0) (op2Field w0))
  | register (op : RegisterOp) (hop : subopOf m.register (subField w0) RegisterOp.all = .ok op) :
      DecodesTo m w0 w1 .register (Instr.ofRegister op (op1Field w0) (op2Field w0))
  | branch (op : BranchOp) (hop : subopOf m.branch (subField w0) BranchOp.all = .ok op) :
      DecodesTo m w0 w1 .branch (Instr.ofBranch op (op1Field w0) (op2Field w0) w1)
  | unary (op : UnaryOp) (hop : subopOf m.unary (subField w0) UnaryOp.all = .ok op) (h2 : op2Field w0 = 0) :
      DecodesTo m w0 w1 .unary (Instr.ofUnary op (op1Field w0))
  | zero (op : ZeroOp) (hop : subopOf m.zero (subField w0) ZeroOp.all = .ok op)
      (h12 : op1Field w0 = 0 ∧ op2Field w0 = 0) : DecodesTo m w0 w1 .zero (Instr.ofZero op)

/-- A legal word of the class its main opcode selects decodes, with the length of the class. -/
theorem DecodesTo.decodeNamed_eq {m : SubopMap} {w0 w1 : Word} {c : OpClass} {i : Instr} (h : DecodesTo m w0 w1 c i)
    (hc : OpClass.ofMain (mainField w0) = some c) : decodeNamed m w0 w1 = .ok (i, c.words) := by
  cases h with
  | beltConstant op hop h2 => simp only [decodeNamed, hc, hop, if_pos h2, OpClass.words]
  | constant op hop h12 => simp only [decodeNamed, hc, hop, if_pos h12, OpClass.words]
  | immediate op hop => simp only [decodeNamed, hc, hop, OpClass.words]
  | register op hop => simp only [decodeNamed, hc, hop, OpClass.words]
  | branch op hop => simp only [decodeNamed, hc, hop, OpClass.words]
  | unary op hop h2 => simp only [decodeNamed, hc, hop, if_pos h2, OpClass.words]
  | zero op hop h12 => simp only [decodeNamed, hc, hop, if_pos h12, OpClass.words]

/-- Nothing else decodes: the decoder answers only in a class, for one of its operations, with its unused nibbles zero. -/
theorem decodesTo_of_decodeNamed_ok {m : SubopMap} {w0 w1 : Word} {i : Instr} {n : Nat}
    (h : decodeNamed m w0 w1 = .ok (i, n)) :
    ∃ c, OpClass.ofMain (mainField w0) = some c ∧ DecodesTo m w0 w1 c i ∧ n = c.words := by
  cases hc : OpClass.ofMain (mainField w0) with
  | none => simp only [decodeNamed, hc, reduceCtorEq] at h
  | some c =>
    refine ⟨c, rfl, ?_⟩
    cases c <;> simp only [decodeNamed, hc] at h
    case beltConstant =>
      split at h
      · cases h
      · next op hop =>
        split at h
        · next h2 => cases h; exact ⟨.beltConstant op hop h2, rfl⟩
        · cases h
    case constant =>
      split at h
      · cases h
      · next op hop =>
        split at h
        · next h12 => cases h; exact ⟨.constant op hop h12, rfl⟩
        · cases h
    case immediate =>
      split at h
      · cases h
      · next op hop => cases h; exact ⟨.immediate op hop, rfl⟩
    case register =>
      split at h
      · cases h
      · next op hop => cases h; exact ⟨.register op hop, rfl⟩
    case branch =>
      split at h
      · cases h
      · next op hop => cases h; exact ⟨.branch op hop, rfl⟩
    case unary =>
      split at h
      · cases h
      · next op hop =>
        split at h
        · next h2 => cases h; exact ⟨.unary op hop h2, rfl⟩
        · cases h
    case zero =>
      split at h
      · cases h
      · next op hop =>
        split at h
        · next h12 => cases h; exact ⟨.zero op hop h12, rfl⟩
        · cases h

theorem decodeWith_eq_some_iff_decodeNamed {m : SubopMap} {w0 w1 : Word} {r : Instr × Nat} :
    decodeWith m w0 w1 = some r ↔ decodeNamed m w0 w1 = .ok r := by
  unfold decodeWith
  cases decodeNamed m w0 w1 with
  | error e => simp
  | ok r' => simp

/-- What the decoder answers: exactly the legal words of the class of the main opcode, with the length of that class. -/
theorem decodeWith_eq_some_iff {m : SubopMap} {w0 w1 : Word} {i : Instr} {n : Nat} :
    decodeWith m w0 w1 = some (i, n) ↔ ∃ c, mainField w0 = c.main ∧ DecodesTo m w0 w1 c i ∧ n = c.words := by
  simp only [decodeWith_eq_some_iff_decodeNamed, ← OpClass.ofMain_eq_some_iff]
  constructor
  · exact decodesTo_of_decodeNamed_ok
  · rintro ⟨c, hc, h, rfl⟩
    exact h.decodeNamed_eq hc

/-- Settles O46: the length is that of the class, and the class is that of the main opcode. -/
theorem lengthIsAFunctionOfTheMainOpcode : Obligations.LengthIsAFunctionOfTheMainOpcode := by
  unfold Obligations.LengthIsAFunctionOfTheMainOpcode
  intro m w0 w1 i n h
  obtain ⟨c, hc, -, hn⟩ := decodeWith_eq_some_iff.1 h
  rw [hn, hc, OpClass.words_eq_ite]

/-- No condition on a legal word is about its second word (30_encoding.md R63). -/
theorem DecodesTo.exists_of_any_second {m : SubopMap} {w0 w1 : Word} {c : OpClass} {i : Instr}
    (h : DecodesTo m w0 w1 c i) (w1' : Word) : ∃ i', DecodesTo m w0 w1' c i' := by
  cases h with
  | beltConstant op hop h2 => exact ⟨_, .beltConstant op hop h2⟩
  | constant op hop h12 => exact ⟨_, .constant op hop h12⟩
  | immediate op hop => exact ⟨_, .immediate op hop⟩
  | register op hop => exact ⟨_, .register op hop⟩
  | branch op hop => exact ⟨_, .branch op hop⟩
  | unary op hop h2 => exact ⟨_, .unary op hop h2⟩
  | zero op hop h12 => exact ⟨_, .zero op hop h12⟩

/-- In a two-word class the second word is the instruction's constant or address, whole. -/
theorem DecodesTo.second_taken_whole {m : SubopMap} {w0 w1 : Word} {c : OpClass} {i : Instr}
    (h : DecodesTo m w0 w1 c i) (hc : c.words = 2) : (encodeWith m i).2 = some w1 := by
  cases h with
  | beltConstant op => cases op <;> rfl
  | constant op => cases op <;> rfl
  | branch op => cases op <;> rfl
  | immediate | register | unary | zero => cases hc

/-- In a one-word class the instruction is the same whatever word follows. -/
theorem DecodesTo.second_ignored {m : SubopMap} {w0 w1 : Word} {c : OpClass} {i : Instr}
    (h : DecodesTo m w0 w1 c i) (hc : c.words = 1) (w1' : Word) : DecodesTo m w0 w1' c i := by
  cases h with
  | immediate op hop => exact .immediate op hop
  | register op hop => exact .register op hop
  | unary op hop h2 => exact .unary op hop h2
  | zero op hop h12 => exact .zero op hop h12
  | beltConstant | constant | branch => cases hc

/-- A decode that succeeds with one second word succeeds with every other. -/
theorem decodeWith_isSome_of_any_second {m : SubopMap} {w0 w1 : Word} (w1' : Word)
    (h : (decodeWith m w0 w1).isSome = true) : (decodeWith m w0 w1').isSome = true := by
  obtain ⟨⟨i, n⟩, hdec⟩ := Option.isSome_iff_exists.1 h
  obtain ⟨c, hc, hto, hn⟩ := decodeWith_eq_some_iff.1 hdec
  obtain ⟨i', hto'⟩ := hto.exists_of_any_second w1'
  exact Option.isSome_iff_exists.2 ⟨(i', n), decodeWith_eq_some_iff.2 ⟨c, hc, hto', hn⟩⟩

/-- Outside classes 1, 2 and 5 a decode that succeeds answers the same with every other second word. -/
theorem decodeWith_some_of_second_ignored {m : SubopMap} {w0 w1 : Word} {i : Instr} {n : Nat}
    (hmain : ¬ (mainField w0 = 1 ∨ mainField w0 = 2 ∨ mainField w0 = 5)) (w1' : Word)
    (h : decodeWith m w0 w1 = some (i, n)) : decodeWith m w0 w1' = some (i, n) := by
  obtain ⟨c, hc, hto, hn⟩ := decodeWith_eq_some_iff.1 h
  have one_word : c.words = 1 := by rw [OpClass.words_eq_ite, if_neg (hc ▸ hmain)]
  exact decodeWith_eq_some_iff.2 ⟨c, hc, hto.second_ignored one_word w1', hn⟩

/-- The address behind the pc wraps modulo 2^16 (30_encoding.md R63; 90_conflicts.md C12). -/
theorem Machine.State.fetch_snd (s : State) :
    s.fetch.2 = s.memRead (BitVec.ofNat 16 ((s.pc.toNat + 1) % 65536)) := by
  have next_address : s.pc + 1 = BitVec.ofNat 16 ((s.pc.toNat + 1) % 65536) := by bv_omega
  rw [State.fetch_eq, next_address]

/-- Settles O47. That the second word never fails a decode, and that the one-word classes ignore it, is each one
implication, used in both directions. -/
theorem secondWordIsTakenWholeOrIgnored : Obligations.SecondWordIsTakenWholeOrIgnored := by
  unfold Obligations.SecondWordIsTakenWholeOrIgnored
  refine ⟨fun m w0 w1 w1' => ⟨?never_fails, ?taken_whole, ?ignored⟩, State.fetch_snd⟩
  case never_fails =>
    exact Bool.eq_iff_iff.2 ⟨decodeWith_isSome_of_any_second w1', decodeWith_isSome_of_any_second w1⟩
  case taken_whole =>
    intro hmain i n h
    obtain ⟨c, hc, hto, -⟩ := decodeWith_eq_some_iff.1 h
    have two_words : c.words = 2 := by rw [OpClass.words_eq_ite, if_pos (hc ▸ hmain)]
    exact hto.second_taken_whole two_words
  case ignored =>
    intro hmain
    apply Option.ext
    rintro ⟨i, n⟩
    exact ⟨decodeWith_some_of_second_ignored hmain w1', decodeWith_some_of_second_ignored hmain w1⟩

end Sys2Proof

/-! What a step answers at a word that does not decode (40_codec_and_step.md R98), in the host's form and in the spec's. -/

namespace Sys2Proof.Machine

/-- `step_cases` for the spec's own step: Stop in the same state, else the instruction's answer with its pc updated. -/
theorem stepWithResult_cases (s : State) :
    (decode s.fetch.1 s.fetch.2 = none ∧ stepWithResult s = ⟨.stop, s⟩) ∨
      ∃ i n, decode s.fetch.1 s.fetch.2 = some (i, n) ∧ stepWithResult s = updatePc n (execute i s) := by
  unfold stepWithResult
  cases hdec : decode s.fetch.1 s.fetch.2 with
  | none => exact .inl ⟨rfl, rfl⟩
  | some r => exact .inr ⟨r.1, r.2, rfl, rfl⟩

theorem stepWithResult_of_decode_none {s : State} (hdec : decode s.fetch.1 s.fetch.2 = none) :
    stepWithResult s = ⟨.stop, s⟩ := by
  obtain ⟨-, stops⟩ | ⟨i, n, decodes, -⟩ := stepWithResult_cases s
  · exact stops
  · cases hdec.symm.trans decodes

theorem step_of_decode_none {s : State} (hdec : decode s.fetch.1 s.fetch.2 = none) : step s = .fault .stop := by
  obtain ⟨-, stops⟩ | ⟨i, n, decodes, -⟩ := step_cases s
  · exact stops
  · cases hdec.symm.trans decodes

/-- Settles O30: the two words at pc are those the step fetches, and at a failed decode both forms of the step stop. -/
theorem decodeFailureStopsWithoutChange : Obligations.DecodeFailureStopsWithoutChange := by
  unfold Obligations.DecodeFailureStopsWithoutChange
  intro s hdec
  have fetched_fails : decode s.fetch.1 s.fetch.2 = none := by rw [State.fetch_eq, hdec]
  exact ⟨stepWithResult_of_decode_none fetched_fails, step_of_decode_none fetched_fails⟩

end Sys2Proof.Machine

/-! What completes by pushing one value (10_state.md R28), and class BeltConstant, whose instructions all do
(41_belt_constant.md R110). -/

namespace Sys2Proof.Machine

open Sys2Proof.Claims

/-- The pc update of a Continue, over the integers (40_codec_and_step.md R101). -/
theorem advanced_setPc (n : Nat) (s t : State) : Advanced n s (t.setPc (s.pc + BitVec.ofNat 16 n)) := by
  unfold Advanced
  rw [State.setPc_pc, BitVec.toNat_add, BitVec.toNat_ofNat, Nat.add_mod_mod]

/-- An instruction whose rule pushes `v` completes with Continue past its own words and has no other effect, whatever `v`
was computed from in the state before the push. -/
theorem pushesAndContinues_of_execute_eq {i : Instr} {s : State} {v : Word} (hrule : execute i s = pushes v s) :
    PushesAndContinues i s i.words v.toNat := by
  have continued : (execute i s).result = .cont := by rw [hrule]; rfl
  have completed : exec i s = .next ((s.push v).setPc (s.pc + BitVec.ofNat 16 i.words)) := by
    rw [exec_eq_complete, hrule, complete_pushes]
  refine ⟨continued, _, completed, ?front, fun k hk => ?shifted, fun a => ?memory, ?sp, advanced_setPc _ _ _⟩
  case front => rw [State.setPc_peek, State.peek_push_zero]
  case shifted => rw [State.setPc_peek, State.peek_push_succ s v hk]
  case memory => rw [State.setPc_memRead, State.push_memRead]
  case sp => rw [State.setPc_sp, State.push_sp]

theorem execute_beltConstantAnd (pos : BeltPos) (const : Word) (s : State) :
    execute (.beltConstantAnd pos const) s = pushes (s.peek pos.toNat &&& const) s := rfl

theorem execute_beltConstantOr (pos : BeltPos) (const : Word) (s : State) :
    execute (.beltConstantOr pos const) s = pushes (s.peek pos.toNat ||| const) s := rfl

theorem execute_beltConstantXor (pos : BeltPos) (const : Word) (s : State) :
    execute (.beltConstantXor pos const) s = pushes (s.peek pos.toNat ^^^ const) s := rfl

/-- Settles O12: each operation's rule pushes the combination of words, and a bitwise operation on words is the one on
their numbers. -/
theorem beltConstantPushesCombination : Obligations.BeltConstantPushesCombination := by
  unfold Obligations.BeltConstantPushesCombination
  intro pos const s
  rw [← BitVec.toNat_and, ← BitVec.toNat_or, ← BitVec.toNat_xor]
  exact ⟨pushesAndContinues_of_execute_eq (execute_beltConstantAnd pos const s),
    pushesAndContinues_of_execute_eq (execute_beltConstantOr pos const s),
    pushesAndContinues_of_execute_eq (execute_beltConstantXor pos const s)⟩

end Sys2Proof.Machine

/-! A class whose operand nibbles are both unused: a first word that sets one of them does not decode
(40_codec_and_step.md R92). -/

namespace Sys2Proof

open Sys2Proof.Machine

/-- No two classes share a main opcode (30_encoding.md R64). -/
theorem OpClass.main_injective : Function.Injective OpClass.main := fun _ _ hmain =>
  Option.some.inj ((OpClass.ofMain_eq_some_iff.2 rfl).symm.trans (OpClass.ofMain_eq_some_iff.2 hmain))

theorem DecodesTo.operand_nibbles_zero {m : SubopMap} {w0 w1 : Word} {c : OpClass} {i : Instr}
    (h : DecodesTo m w0 w1 c i) (hc : c = .constant ∨ c = .zero) : op1Field w0 = 0 ∧ op2Field w0 = 0 := by
  cases h with
  | constant _ _ h12 => exact h12
  | zero _ _ h12 => exact h12
  | beltConstant | immediate | register | branch | unary => rcases hc with hc | hc <;> cases hc

/-- Under every SUBOP_MAP, whatever the sub-opcode and the second word. -/
theorem decodeWith_none_of_operand_nibble {c : OpClass} (hc : c = .constant ∨ c = .zero) (m : SubopMap)
    (sub : BitVec 4) {op1 op2 : BitVec 4} (hop : op1 ≠ 0 ∨ op2 ≠ 0) (w1 : Word) :
    decodeWith m (firstWord c.main sub op1 op2) w1 = none := by
  refine Option.eq_none_iff_forall_ne_some.2 ?_
  rintro ⟨i, n⟩ hdec
  obtain ⟨d, hmain, hto, -⟩ := decodeWith_eq_some_iff.1 hdec
  rw [mainField_firstWord] at hmain
  obtain rfl := OpClass.main_injective hmain
  obtain ⟨h1, h2⟩ := hto.operand_nibbles_zero hc
  rw [op1Field_firstWord] at h1
  rw [op2Field_firstWord] at h2
  exact hop.elim (absurd h1) (absurd h2)

end Sys2Proof

/-! What completes by a jump and nothing else, and class Constant (42_constant.md R120). -/

namespace Sys2Proof.Machine

open Sys2Proof.Claims

/-- An instruction whose rule jumps from the unchanged state completes at the destination and has no other effect. -/
theorem onlyJumps_of_execute_eq {i : Instr} {s : State} {dest : Word} (hrule : execute i s = jumps dest s) :
    OnlyJumps i s dest := by
  have jumped : (execute i s).result = .jump dest := by rw [hrule]; rfl
  have completed : exec i s = .next (s.setPc dest) := by rw [exec_eq_complete, hrule, complete_jumps]
  exact ⟨jumped, _, completed, State.setPc_pc s dest, fun k _ => State.setPc_peek s dest k, State.setPc_memRead s dest,
    State.setPc_sp s dest⟩

theorem execute_constantLoadFromMemory (const : Word) (s : State) :
    execute (.constantLoadFromMemory const) s = pushes (s.memRead const) s := rfl

theorem execute_constantLoadConstant (const : Word) (s : State) :
    execute (.constantLoadConstant const) s = pushes const s := rfl

theorem execute_constantCall (const : Word) (s : State) :
    execute (.constantCall const) s = jumps const (State.spill s.belt 16 s) := ruleConstantCall_eq const s

theorem execute_constantJump (const : Word) (s : State) : execute (.constantJump const) s = jumps const s := rfl

/-- Settles O13: the loads' rules push one value, Jump's only jumps, Call's jumps from the spilled state; and class
Constant uses neither operand nibble. -/
theorem constantClassLoadsAndJumps : Obligations.ConstantClassLoadsAndJumps := by
  unfold Obligations.ConstantClassLoadsAndJumps
  refine ⟨fun const s => ⟨?load_from_memory, ?load_constant, ?jump, ?call_result, ?call_pc⟩, ?operand_nibbles⟩
  case load_from_memory => exact pushesAndContinues_of_execute_eq (execute_constantLoadFromMemory const s)
  case load_constant => exact pushesAndContinues_of_execute_eq (execute_constantLoadConstant const s)
  case jump => exact onlyJumps_of_execute_eq (execute_constantJump const s)
  case call_result => rw [execute_constantCall]; rfl
  case call_pc => exact ⟨_, exec_constantCall const s, State.setPc_pc _ const⟩
  case operand_nibbles =>
    intro sub op1 op2 w1 hop
    exact decodeWith_none_of_operand_nibble (c := .constant) (.inl rfl) subopMap sub hop w1

end Sys2Proof.Machine

/-! The model's canonical form of memory (log entry 12): it holds at reset, and with it the data are what the machine can
read. -/

namespace Sys2Proof.Machine

/-- Settles O2. -/
theorem resetMemoryIsCanonical : Obligations.ResetMemoryIsCanonical := by
  unfold Obligations.ResetMemoryIsCanonical
  exact State.reset_mem_wf

/-- One entry of a canonical list: in range, not what an unlisted address reads as, and the rest canonical behind it. -/
theorem Memory.wfFrom_cons {lo a : Nat} {v : Word} {rest : Memory} :
    Memory.wfFrom lo ((a, v) :: rest) = true ↔
      lo ≤ a ∧ a < 65536 ∧ v ≠ Memory.unlisted ∧ rest.wfFrom (a + 1) = true := by
  simp only [Memory.wfFrom, Bool.and_eq_true, decide_eq_true_eq, and_assoc]

@[simp] theorem Memory.lookup_cons_self (a : Nat) (v : Word) (rest : Memory) :
    Memory.lookup a ((a, v) :: rest) = v := if_pos rfl

theorem Memory.lookup_cons_ne {a key : Nat} (hne : a ≠ key) (v : Word) (rest : Memory) :
    Memory.lookup key ((a, v) :: rest) = rest.lookup key := if_neg hne

/-- A canonical list that reads as `m'` does begins no earlier than `m'`: its first entry reads as no unlisted address
does. -/
theorem Memory.head_not_below {lo a : Nat} {v : Word} {rest m' : Memory} (hwf : Memory.wfFrom lo ((a, v) :: rest) = true)
    (hread : ∀ k, k < 65536 → Memory.lookup k ((a, v) :: rest) = m'.lookup k) {lo' : Nat} (hwf' : m'.wfFrom lo' = true) :
    lo' ≤ a := by
  obtain ⟨-, ha, hv, -⟩ := Memory.wfFrom_cons.1 hwf
  by_contra hlt
  apply hv
  rw [← Memory.lookup_cons_self a v rest, hread a ha, Memory.lookup_below (by omega) hwf']

/-- By induction on the first list: neither list can begin below the other, so the heads are the same entry and the rests
read alike behind it. -/
theorem Memory.eq_of_lookup_eq : ∀ {m m' : Memory} {lo lo' : Nat}, m.wfFrom lo = true → m'.wfFrom lo' = true →
    (∀ k, k < 65536 → m.lookup k = m'.lookup k) → m = m'
  | [], [], _, _, _, _, _ => rfl
  | [], (a, v) :: rest, _, _, _, hwf', hread =>
    absurd (Memory.head_not_below hwf' (fun k hk => (hread k hk).symm) (m' := []) (lo' := a + 1) rfl) (by omega)
  | (a, v) :: rest, [], _, _, hwf, _, hread =>
    absurd (Memory.head_not_below hwf hread (lo' := a + 1) rfl) (by omega)
  | (a, v) :: rest, (a', v') :: rest', lo, lo', hwf, hwf', hread => by
    obtain ⟨-, ha, hv, hrest⟩ := Memory.wfFrom_cons.1 hwf
    obtain ⟨-, ha', hv', hrest'⟩ := Memory.wfFrom_cons.1 hwf'
    have not_below : a' ≤ a :=
      Memory.head_not_below hwf hread (Memory.wfFrom_cons.2 ⟨le_refl a', ha', hv', hrest'⟩)
    have not_above : a ≤ a' :=
      Memory.head_not_below hwf' (fun k hk => (hread k hk).symm) (Memory.wfFrom_cons.2 ⟨le_refl a, ha, hv, hrest⟩)
    obtain rfl : a = a' := le_antisymm not_above not_below
    obtain rfl : v = v' := by simpa using hread a ha
    have rests_read_alike (k : Nat) (hk : k < 65536) : Memory.lookup k rest = Memory.lookup k rest' := by
      by_cases hka : a = k
      · rw [Memory.lookup_below (by omega) hrest, Memory.lookup_below (by omega) hrest']
      · simpa only [Memory.lookup_cons_ne hka] using hread k hk
    rw [Memory.eq_of_lookup_eq hrest hrest' rests_read_alike]

/-- Settles O4: every key of a canonical list is an address. -/
theorem canonicalMemoriesThatReadAlikeAreEqual : Obligations.CanonicalMemoriesThatReadAlikeAreEqual := by
  unfold Obligations.CanonicalMemoriesThatReadAlikeAreEqual
  intro m m' hwf hwf' hread
  refine Memory.eq_of_lookup_eq hwf hwf' fun k hk => ?_
  simpa only [Memory.read, BitVec.toNat_ofNat, Nat.mod_eq_of_lt hk] using hread (BitVec.ofNat 16 k)

end Sys2Proof.Machine

/-! What an instruction can do (40_codec_and_step.md R102), said once for all twenty-nine: the rule of each is one of ten
effects. From them: the canonical memory (log entry 12), pc during execution, the results, and the frames of belt,
memory and sp. -/

namespace Sys2Proof.Machine

open Sys2Proof.Claims

/-- An instruction that stores nothing and leaves sp alone, and may answer `r`. -/
structure Plain (i : Instr) (s : State) (r : StepResult) : Prop where
  stores : storedTo i s = []
  sp : spAfter i s = s.sp
  result : MayReturn i r

/-- `Effect s i e`: executed in `s`, the instruction `i` may answer `e`. The first three effects are shared by the
instructions that have no other; each of the others is one instruction's own. -/
inductive Effect (s : State) : Instr → Executed → Prop where
  | value {i : Instr} (v : Word) (hi : Plain i s .cont) : Effect s i (pushes v s)
  | proceed {i : Instr} (hi : Plain i s .cont) : Effect s i (continues s)
  | jump {i : Instr} (dest : Word) (hi : Plain i s (.jump dest)) : Effect s i (jumps dest s)
  | call (const : Word) : Effect s (.constantCall const) (jumps const (State.spill s.belt 16 s))
  | ret (pos : BeltPos) (imm : Imm4) : Effect s (.immediateRet pos imm) (returnWith imm.toNat s)
  | save (pos1 pos2 : BeltPos) :
      Effect s (.registerSave pos1 pos2) (continues (s.memWrite (s.beltAt pos2) (s.beltAt pos1)))
  | push (pos : BeltPos) : Effect s (.unaryPush pos) (continues (s.stackPush (s.beltAt pos)))
  | pop : Effect s .zeroPop (pushes s.stackPop.1 s.stackPop.2)
  | halt : Effect s .zeroBreak (raises .stop s)
  | divideByZero (pos1 pos2 : BeltPos) (hzero : s.peek pos2.toNat = 0) :
      Effect s (.registerDiv pos1 pos2) (raises .fail s)

/-- A comparison either jumps or continues, and does nothing else (45_branch.md R160). -/
theorem Effect.of_branches {i : Instr} {s : State} (test : Word → Word → Bool) (pos1 pos2 : BeltPos) (addr : Word)
    (hjump : Plain i s (.jump addr)) (hcont : Plain i s .cont) : Effect s i (branches test pos1 pos2 addr s) := by
  rcases branches_cases test pos1 pos2 addr s with ⟨-, taken⟩ | ⟨-, not_taken⟩
  · rw [taken]; exact .jump addr hjump
  · rw [not_taken]; exact .proceed hcont

theorem Effect.of_registerDiv (pos1 pos2 : BeltPos) (s : State) :
    Effect s (.registerDiv pos1 pos2) (ruleRegisterDiv pos1 pos2 s) := by
  unfold ruleRegisterDiv
  split
  · next hzero => exact .divideByZero pos1 pos2 hzero
  · exact .value _ ⟨rfl, rfl, .inl rfl⟩

/-- The rule of every instruction has the effect named for it. -/
theorem execute_effect (i : Instr) (s : State) : Effect s i (execute i s) := by
  cases i with
  | beltConstantAnd | beltConstantOr | beltConstantXor => exact .value _ ⟨rfl, rfl, rfl⟩
  | constantLoadFromMemory | constantLoadConstant => exact .value _ ⟨rfl, rfl, rfl⟩
  | constantCall const => rw [execute_constantCall]; exact .call const
  | constantJump const => exact .jump const ⟨rfl, rfl, rfl⟩
  | immediateShiftLeft | immediateShiftRight => exact .value _ ⟨rfl, rfl, rfl⟩
  | immediateRet pos imm => exact .ret pos imm
  | registerAdd | registerSub | registerMul => exact .value _ ⟨rfl, rfl, rfl⟩
  | registerDiv pos1 pos2 => exact .of_registerDiv pos1 pos2 s
  | registerAnd | registerOr | registerXor => exact .value _ ⟨rfl, rfl, rfl⟩
  | registerShiftLeft | registerShiftRight => exact .value _ ⟨rfl, rfl, rfl⟩
  | registerSave pos1 pos2 => exact .save pos1 pos2
  | branchLt pos1 pos2 addr | branchLe pos1 pos2 addr | branchEq pos1 pos2 addr =>
    exact .of_branches _ pos1 pos2 addr ⟨rfl, rfl, .inl rfl⟩ ⟨rfl, rfl, .inr rfl⟩
  | unaryLoad => exact .value _ ⟨rfl, rfl, rfl⟩
  | unaryJump => exact .jump _ ⟨rfl, rfl, ⟨_, rfl⟩⟩
  | unaryPush pos => exact .push pos
  | zeroNop => exact .proceed ⟨rfl, rfl, rfl⟩
  | zeroPop => exact .pop
  | zeroBreak => exact .halt

@[simp] theorem jumps_state (dest : Word) (s : State) : (jumps dest s).state = s := rfl

/-- A count of return values is at most fifteen (90_conflicts.md C3). -/
theorem imm4_le_sixteen (imm : Imm4) : imm.toNat ≤ 16 := by omega

/-- The state an instruction goes on with is its rule's, with pc moved. -/
theorem state_of_exec_next {i : Instr} {s t : State} (h : exec i s = .next t) :
    ∃ a : Word, t = (execute i s).state.setPc a := by
  rw [exec_eq_complete] at h
  exact complete_next h

theorem Effect.keeps_wf {s : State} {i : Instr} {e : Executed} (h : Effect s i e) (hwf : s.mem.wf = true) :
    e.state.mem.wf = true := by
  cases h with
  | value | proceed | jump | pop | halt | divideByZero => exact hwf
  | call => exact State.spill_wf s.belt 16 hwf
  | ret _ imm =>
    obtain ⟨-, -, -, -, hmem, -⟩ := returnWith_spec (imm4_le_sixteen imm) s
    rw [hmem, hwf]
  | save => exact State.memWrite_wf hwf _ _
  | push => exact State.stackPush_wf hwf _

/-- Settles O3: a step that goes on executes an instruction, and each of the ten effects keeps the canonical form. -/
theorem everyStepKeepsMemoryCanonical : Obligations.EveryStepKeepsMemoryCanonical := by
  unfold Obligations.EveryStepKeepsMemoryCanonical
  intro s t hwf hstep
  obtain ⟨-, stops⟩ | ⟨i, n, -, executes⟩ := step_cases s
  · cases stops.symm.trans hstep
  · obtain ⟨a, rfl⟩ := state_of_exec_next (executes.symm.trans hstep)
    exact (execute_effect i s).keeps_wf hwf

end Sys2Proof.Machine

/-! The codec, both ways (40_codec_and_step.md section 3): encode class by class, decode as the legal words of a class,
and from them the round trip, the failures and the counts of 30_encoding.md section 3. -/

namespace Sys2Proof

@[simp] theorem BeltConstantOp.mem_all (op : BeltConstantOp) : op ∈ BeltConstantOp.all := by cases op <;> decide
@[simp] theorem ConstantOp.mem_all (op : ConstantOp) : op ∈ ConstantOp.all := by cases op <;> decide
@[simp] theorem ImmediateOp.mem_all (op : ImmediateOp) : op ∈ ImmediateOp.all := by cases op <;> decide
@[simp] theorem RegisterOp.mem_all (op : RegisterOp) : op ∈ RegisterOp.all := by cases op <;> decide
@[simp] theorem BranchOp.mem_all (op : BranchOp) : op ∈ BranchOp.all := by cases op <;> decide
@[simp] theorem UnaryOp.mem_all (op : UnaryOp) : op ∈ UnaryOp.all := by cases op <;> decide
@[simp] theorem ZeroOp.mem_all (op : ZeroOp) : op ∈ ZeroOp.all := by cases op <;> decide

/-- A proof about every instruction is a proof about the operations of the seven classes. -/
theorem Instr.byClass {motive : Instr → Prop}
    (beltConstant : ∀ op pos const, motive (Instr.ofBeltConstant op pos const))
    (constant : ∀ op const, motive (Instr.ofConstant op const))
    (immediate : ∀ op pos imm, motive (Instr.ofImmediate op pos imm))
    (register : ∀ op pos1 pos2, motive (Instr.ofRegister op pos1 pos2))
    (branch : ∀ op pos1 pos2 addr, motive (Instr.ofBranch op pos1 pos2 addr))
    (unary : ∀ op pos, motive (Instr.ofUnary op pos))
    (zero : ∀ op, motive (Instr.ofZero op)) (i : Instr) : motive i := by
  cases i with
  | beltConstantAnd pos const => exact beltConstant .and pos const
  | beltConstantOr pos const => exact beltConstant .or pos const
  | beltConstantXor pos const => exact beltConstant .xor pos const
  | constantLoadFromMemory const => exact constant .loadFromMemory const
  | constantLoadConstant const => exact constant .loadConstant const
  | constantCall const => exact constant .call const
  | constantJump const => exact constant .jump const
  | immediateShiftLeft pos imm => exact immediate .shiftLeft pos imm
  | immediateShiftRight pos imm => exact immediate .shiftRight pos imm
  | immediateRet pos imm => exact immediate .ret pos imm
  | registerAdd pos1 pos2 => exact register .add pos1 pos2
  | registerSub pos1 pos2 => exact register .sub pos1 pos2
  | registerMul pos1 pos2 => exact register .mul pos1 pos2
  | registerDiv pos1 pos2 => exact register .div pos1 pos2
  | registerAnd pos1 pos2 => exact register .and pos1 pos2
  | registerOr pos1 pos2 => exact register .or pos1 pos2
  | registerXor pos1 pos2 => exact register .xor pos1 pos2
  | registerShiftLeft pos1 pos2 => exact register .shiftLeft pos1 pos2
  | registerShiftRight pos1 pos2 => exact register .shiftRight pos1 pos2
  | registerSave pos1 pos2 => exact register .save pos1 pos2
  | branchLt pos1 pos2 addr => exact branch .lt pos1 pos2 addr
  | branchLe pos1 pos2 addr => exact branch .le pos1 pos2 addr
  | branchEq pos1 pos2 addr => exact branch .eq pos1 pos2 addr
  | unaryLoad pos => exact unary .load pos
  | unaryJump pos => exact unary .jump pos
  | unaryPush pos => exact unary .push pos
  | zeroNop => exact zero .nop
  | zeroPop => exact zero .pop
  | zeroBreak => exact zero .break

section
variable (m : SubopMap)

@[simp] theorem encodeWith_ofBeltConstant (op : BeltConstantOp) (pos : BeltPos) (const : Word) :
    encodeWith m (Instr.ofBeltConstant op pos const) = (firstWord 1 (m.beltConstant op) pos 0, some const) := by
  cases op <;> rfl

@[simp] theorem encodeWith_ofConstant (op : ConstantOp) (const : Word) :
    encodeWith m (Instr.ofConstant op const) = (firstWord 2 (m.constant op) 0 0, some const) := by
  cases op <;> rfl

@[simp] theorem encodeWith_ofImmediate (op : ImmediateOp) (pos : BeltPos) (imm : Imm4) :
    encodeWith m (Instr.ofImmediate op pos imm) = (firstWord 3 (m.immediate op) pos imm, none) := by
  cases op <;> rfl

@[simp] theorem encodeWith_ofRegister (op : RegisterOp) (pos1 pos2 : BeltPos) :
    encodeWith m (Instr.ofRegister op pos1 pos2) = (firstWord 4 (m.register op) pos1 pos2, none) := by
  cases op <;> rfl

@[simp] theorem encodeWith_ofBranch (op : BranchOp) (pos1 pos2 : BeltPos) (addr : Word) :
    encodeWith m (Instr.ofBranch op pos1 pos2 addr) = (firstWord 5 (m.branch op) pos1 pos2, some addr) := by
  cases op <;> rfl

@[simp] theorem encodeWith_ofUnary (op : UnaryOp) (pos : BeltPos) :
    encodeWith m (Instr.ofUnary op pos) = (firstWord 6 (m.unary op) pos 0, none) := by
  cases op <;> rfl

@[simp] theorem encodeWith_ofZero (op : ZeroOp) :
    encodeWith m (Instr.ofZero op) = (firstWord 7 (m.zero op) 0 0, none) := by
  cases op <;> rfl

end

@[simp] theorem Instr.opClass_ofBeltConstant (op : BeltConstantOp) (pos : BeltPos) (const : Word) :
    (Instr.ofBeltConstant op pos const).opClass = .beltConstant := by cases op <;> rfl

@[simp] theorem Instr.opClass_ofConstant (op : ConstantOp) (const : Word) :
    (Instr.ofConstant op const).opClass = .constant := by cases op <;> rfl

@[simp] theorem Instr.opClass_ofImmediate (op : ImmediateOp) (pos : BeltPos) (imm : Imm4) :
    (Instr.ofImmediate op pos imm).opClass = .immediate := by cases op <;> rfl

@[simp] theorem Instr.opClass_ofRegister (op : RegisterOp) (pos1 pos2 : BeltPos) :
    (Instr.ofRegister op pos1 pos2).opClass = .register := by cases op <;> rfl

@[simp] theorem Instr.opClass_ofBranch (op : BranchOp) (pos1 pos2 : BeltPos) (addr : Word) :
    (Instr.ofBranch op pos1 pos2 addr).opClass = .branch := by cases op <;> rfl

@[simp] theorem Instr.opClass_ofUnary (op : UnaryOp) (pos : BeltPos) :
    (Instr.ofUnary op pos).opClass = .unary := by cases op <;> rfl

@[simp] theorem Instr.opClass_ofZero (op : ZeroOp) : (Instr.ofZero op).opClass = .zero := by cases op <;> rfl

/-- Where no two operations share a code, the search finds the operation whose code it is given. -/
theorem subopOf_code {Op : Type} {code : Op → BitVec 4} : ∀ {ops : List Op} {op : Op}, (ops.map code).Nodup → op ∈ ops →
    subopOf code (code op) ops = .ok op
  | o :: rest, op, hnodup, hmem => by
    obtain ⟨hnew, hrest⟩ := List.nodup_cons.1 hnodup
    rcases List.mem_cons.1 hmem with rfl | hmem
    · exact if_pos rfl
    · have other : code o ≠ code op := fun heq => hnew (heq ▸ List.mem_map_of_mem hmem)
      exact (if_neg other).trans (subopOf_code hrest hmem)

/-- A legal word stands for an instruction of its class. -/
theorem DecodesTo.opClass_eq {m : SubopMap} {w0 w1 : Word} {c : OpClass} {i : Instr} (h : DecodesTo m w0 w1 c i) :
    i.opClass = c := by
  cases h <;> simp

/-- A legal word is the first word of the instruction it stands for, and a two-word class has the second word whole. -/
theorem DecodesTo.encodeWith_eq {m : SubopMap} {w0 w1 : Word} {c : OpClass} {i : Instr} (h : DecodesTo m w0 w1 c i)
    (hc : mainField w0 = c.main) : encodeWith m i = (w0, if c.words = 2 then some w1 else none) := by
  have fields := firstWord_fields w0
  rw [hc] at fields
  cases h with
  | beltConstant op hop h2 =>
    rw [encodeWith_ofBeltConstant, (subopOf_ok hop).2, ← h2]; exact congrArg (·, some w1) fields
  | constant op hop h12 =>
    rw [h12.1, h12.2] at fields
    rw [encodeWith_ofConstant, (subopOf_ok hop).2]; exact congrArg (·, some w1) fields
  | immediate op hop => rw [encodeWith_ofImmediate, (subopOf_ok hop).2]; exact congrArg (·, none) fields
  | register op hop => rw [encodeWith_ofRegister, (subopOf_ok hop).2]; exact congrArg (·, none) fields
  | branch op hop => rw [encodeWith_ofBranch, (subopOf_ok hop).2]; exact congrArg (·, some w1) fields
  | unary op hop h2 => rw [encodeWith_ofUnary, (subopOf_ok hop).2, ← h2]; exact congrArg (·, none) fields
  | zero op hop h12 =>
    rw [h12.1, h12.2] at fields
    rw [encodeWith_ofZero, (subopOf_ok hop).2]; exact congrArg (·, none) fields

/-- A decoded word encodes to itself, under every SUBOP_MAP (40_codec_and_step.md R97). -/
theorem encodeWith_of_decodeWith {m : SubopMap} {w s : Word} {i : Instr} {n : Nat}
    (h : decodeWith m w s = some (i, n)) : encodeWith m i = (w, if n = 2 then some s else none) := by
  obtain ⟨c, hc, hto, rfl⟩ := decodeWith_eq_some_iff.1 h
  exact hto.encodeWith_eq hc

theorem mainField_encodeWith (m : SubopMap) (i : Instr) : mainField (encodeWith m i).1 = i.opClass.main := by
  induction i using Instr.byClass <;> simp [OpClass.main]

/-- Under an injective SUBOP_MAP the words of an instruction are legal in its class and stand for it. -/
theorem decodesTo_encodeWith {m : SubopMap} (hm : m.Injective) (i : Instr) (s : Word) :
    DecodesTo m (encodeWith m i).1 ((encodeWith m i).2.getD s) i.opClass i := by
  obtain ⟨hbelt, hconst, himm, hreg, hbranch, hunary, hzero⟩ := hm
  induction i using Instr.byClass with
  | beltConstant op pos const =>
    simpa using DecodesTo.beltConstant (m := m) (w0 := firstWord 1 (m.beltConstant op) pos 0) (w1 := const) op
      (by simpa using subopOf_code hbelt op.mem_all) (by simp)
  | constant op const =>
    simpa using DecodesTo.constant (m := m) (w0 := firstWord 2 (m.constant op) 0 0) (w1 := const) op
      (by simpa using subopOf_code hconst op.mem_all) (by simp)
  | immediate op pos imm =>
    simpa using DecodesTo.immediate (m := m) (w0 := firstWord 3 (m.immediate op) pos imm) (w1 := s) op
      (by simpa using subopOf_code himm op.mem_all)
  | register op pos1 pos2 =>
    simpa using DecodesTo.register (m := m) (w0 := firstWord 4 (m.register op) pos1 pos2) (w1 := s) op
      (by simpa using subopOf_code hreg op.mem_all)
  | branch op pos1 pos2 addr =>
    simpa using DecodesTo.branch (m := m) (w0 := firstWord 5 (m.branch op) pos1 pos2) (w1 := addr) op
      (by simpa using subopOf_code hbranch op.mem_all)
  | unary op pos =>
    simpa using DecodesTo.unary (m := m) (w0 := firstWord 6 (m.unary op) pos 0) (w1 := s) op
      (by simpa using subopOf_code hunary op.mem_all) (by simp)
  | zero op =>
    simpa using DecodesTo.zero (m := m) (w0 := firstWord 7 (m.zero op) 0 0) (w1 := s) op
      (by simpa using subopOf_code hzero op.mem_all) (by simp)

/-- An encoded instruction decodes to itself, whatever follows a one-word instruction (40_codec_and_step.md R97). -/
theorem decodeWith_encodeWith {m : SubopMap} (hm : m.Injective) (i : Instr) (s : Word) :
    decodeWith m (encodeWith m i).1 ((encodeWith m i).2.getD s) = some (i, i.words) :=
  decodeWith_eq_some_iff.2 ⟨_, mainField_encodeWith m i, decodesTo_encodeWith hm i s, rfl⟩

/-- The fields of an `Instr` cannot be out of range (93_implementation_defined.md U5). -/
theorem Instr.wellFormed_eq_true (i : Instr) : i.wellFormed = true := by
  have nibble (p : BitVec 4) : nibbleInRange p.toNat = true := decide_eq_true p.isLt
  have word (k : Word) : k.toNat < 65536 := k.isLt
  cases i <;> simp [Instr.wellFormed, nibble, word]

theorem OpClass.words_eq_two_or_one (c : OpClass) : c.words = 2 ∨ c.words = 1 := by
  cases c <;> decide

/-- An instruction has a second word exactly in the two-word classes (30_encoding.md R60). -/
theorem encodeWith_snd_isSome (m : SubopMap) (i : Instr) : (encodeWith m i).2.isSome = decide (i.words = 2) := by
  induction i using Instr.byClass <;> simp [Instr.words, OpClass.words]

/-- Settles O42: decode then encode, encode then decode, and, from the first, that decode is injective. -/
theorem codecRoundTrip : Obligations.CodecRoundTrip := by
  unfold Obligations.CodecRoundTrip
  intro m hm
  refine ⟨fun w s i n => encodeWith_of_decodeWith, fun i s => ?encoded, fun w s w' s' i n h h' => ?decode_injective⟩
  case encoded =>
    have two_words : i.words = 2 ↔ (encodeWith m i).2.isSome = true := by simp [encodeWith_snd_isSome]
    have one_word : i.words = 1 ↔ (encodeWith m i).2 = none := by
      rw [← Option.not_isSome_iff_eq_none, ← two_words]
      have := i.opClass.words_eq_two_or_one
      unfold Instr.words
      omega
    exact ⟨i.wellFormed_eq_true, decodeWith_encodeWith hm i s, two_words, one_word⟩
  case decode_injective =>
    have same_words := (encodeWith_of_decodeWith h).symm.trans (encodeWith_of_decodeWith h')
    obtain ⟨same_first, same_second⟩ := Prod.mk.inj same_words
    exact ⟨same_first, fun hn => by simpa [hn] using same_second⟩

end Sys2Proof

/-! Which first words decode (30_encoding.md section 3), class by class: the class's codes, and the
operand nibbles it uses. -/

namespace Sys2Proof

open Sys2Proof.Machine Sys2Proof.Claims

/-- The codes of a class's operations, in the order of 30_encoding.md R72. -/
def OpClass.codes (m : SubopMap) : OpClass → List (BitVec 4)
  | .beltConstant => BeltConstantOp.all.map m.beltConstant
  | .constant => ConstantOp.all.map m.constant
  | .immediate => ImmediateOp.all.map m.immediate
  | .register => RegisterOp.all.map m.register
  | .branch => BranchOp.all.map m.branch
  | .unary => UnaryOp.all.map m.unary
  | .zero => ZeroOp.all.map m.zero

/-- Whether the class uses `w0[7:4]` (30_encoding.md R76). -/
def OpClass.usesOp1 : OpClass → Bool
  | .constant | .zero => false
  | .beltConstant | .immediate | .register | .branch | .unary => true

/-- Whether the class uses `w0[3:0]` (30_encoding.md R76). -/
def OpClass.usesOp2 : OpClass → Bool
  | .immediate | .register | .branch => true
  | .beltConstant | .constant | .unary | .zero => false

/-- A sub-opcode search finds an operation exactly when the sub-opcode is one of the codes. -/
theorem exists_subopOf_ok_iff {Op : Type} {code : Op → BitVec 4} {sub : BitVec 4} {ops : List Op} :
    (∃ op, subopOf code sub ops = .ok op) ↔ sub ∈ ops.map code := by
  rw [List.mem_map]
  constructor
  · rintro ⟨op, hop⟩
    exact ⟨op, subopOf_ok hop⟩
  · rintro ⟨op, hmem, hcode⟩
    cases hsearch : subopOf code sub ops with
    | ok found => exact ⟨found, rfl⟩
    | error e => exact absurd hcode (subopOf_error hsearch op hmem)

/-- Which first words are legal in a class: those with one of its codes and zero in each nibble it does not use. -/
theorem exists_decodesTo_iff {m : SubopMap} {w0 w1 : Word} {c : OpClass} :
    (∃ i, DecodesTo m w0 w1 c i) ↔ subField w0 ∈ c.codes m ∧ (c.usesOp1 = false → op1Field w0 = 0) ∧
      (c.usesOp2 = false → op2Field w0 = 0) := by
  constructor
  · rintro ⟨i, h⟩
    cases h with
    | beltConstant op hop h2 => exact ⟨exists_subopOf_ok_iff.1 ⟨op, hop⟩, nofun, fun _ => h2⟩
    | constant op hop h12 => exact ⟨exists_subopOf_ok_iff.1 ⟨op, hop⟩, fun _ => h12.1, fun _ => h12.2⟩
    | immediate op hop => exact ⟨exists_subopOf_ok_iff.1 ⟨op, hop⟩, nofun, nofun⟩
    | register op hop => exact ⟨exists_subopOf_ok_iff.1 ⟨op, hop⟩, nofun, nofun⟩
    | branch op hop => exact ⟨exists_subopOf_ok_iff.1 ⟨op, hop⟩, nofun, nofun⟩
    | unary op hop h2 => exact ⟨exists_subopOf_ok_iff.1 ⟨op, hop⟩, nofun, fun _ => h2⟩
    | zero op hop h12 => exact ⟨exists_subopOf_ok_iff.1 ⟨op, hop⟩, fun _ => h12.1, fun _ => h12.2⟩
  · rintro ⟨hcode, h1, h2⟩
    cases c <;> obtain ⟨op, hop⟩ := exists_subopOf_ok_iff.2 hcode
    case beltConstant => exact ⟨_, .beltConstant op hop (h2 rfl)⟩
    case constant => exact ⟨_, .constant op hop ⟨h1 rfl, h2 rfl⟩⟩
    case immediate => exact ⟨_, .immediate op hop⟩
    case register => exact ⟨_, .register op hop⟩
    case branch => exact ⟨_, .branch op hop⟩
    case unary => exact ⟨_, .unary op hop (h2 rfl)⟩
    case zero => exact ⟨_, .zero op hop ⟨h1 rfl, h2 rfl⟩⟩

/-- Which first words decode: those of a class, legal in it. -/
theorem decodeWith_isSome_iff {m : SubopMap} {w0 w1 : Word} :
    (decodeWith m w0 w1).isSome = true ↔ ∃ c : OpClass, mainField w0 = c.main ∧ subField w0 ∈ c.codes m ∧
      (c.usesOp1 = false → op1Field w0 = 0) ∧ (c.usesOp2 = false → op2Field w0 = 0) := by
  rw [Option.isSome_iff_exists]
  constructor
  · rintro ⟨⟨i, n⟩, h⟩
    obtain ⟨c, hc, hto, -⟩ := decodeWith_eq_some_iff.1 h
    exact ⟨c, hc, exists_decodesTo_iff.1 ⟨i, hto⟩⟩
  · rintro ⟨c, hc, legal⟩
    obtain ⟨i, hto⟩ := exists_decodesTo_iff.2 legal
    exact ⟨(i, c.words), decodeWith_eq_some_iff.2 ⟨c, hc, hto, rfl⟩⟩

/-- The same for a word whose class is known. -/
theorem decodeWith_isSome_iff_of_main {m : SubopMap} {w0 w1 : Word} {c : OpClass} (hc : mainField w0 = c.main) :
    (decodeWith m w0 w1).isSome = true ↔ subField w0 ∈ c.codes m ∧
      (c.usesOp1 = false → op1Field w0 = 0) ∧ (c.usesOp2 = false → op2Field w0 = 0) := by
  rw [decodeWith_isSome_iff]
  constructor
  · rintro ⟨d, hd, legal⟩
    obtain rfl := OpClass.main_injective (hc.symm.trans hd)
    exact legal
  · exact fun legal => ⟨c, hc, legal⟩

/-- A main opcode is that of no class, or of one (30_encoding.md R74). -/
theorem OpClass.main_cases (main : BitVec 4) : (main = 0 ∨ 8 ≤ main.toNat) ∨ ∃ c : OpClass, main = c.main := by
  cases hc : OpClass.ofMain main with
  | none => exact .inl (by revert main; decide)
  | some c => exact .inr ⟨c, OpClass.ofMain_eq_some_iff.1 hc⟩

theorem OpClass.main_ne_of_illegal {main : BitVec 4} (h : main = 0 ∨ 8 ≤ main.toNat) (c : OpClass) : main ≠ c.main := by
  rintro rfl
  revert h
  cases c <;> decide

theorem decodeWith_none_of_illegal_main {m : SubopMap} {w0 : Word} (h : mainField w0 = 0 ∨ 8 ≤ (mainField w0).toNat)
    (w1 : Word) : decodeWith m w0 w1 = none := by
  rw [← Option.not_isSome_iff_eq_none, decodeWith_isSome_iff]
  rintro ⟨c, hc, -⟩
  exact OpClass.main_ne_of_illegal h c hc

/-- Settles O44: without a class no word decodes; in each class the disjuncts of the others fail on the main opcode, and
what is left says that the word is not legal in its own. -/
theorem decodeFailsExactlyOnIllegalWords : Obligations.DecodeFailsExactlyOnIllegalWords := by
  unfold Obligations.DecodeFailsExactlyOnIllegalWords
  intro m w0 w1
  rcases OpClass.main_cases (mainField w0) with illegal | ⟨c, hc⟩
  · exact iff_of_true (decodeWith_none_of_illegal_main illegal w1) (.inl illegal)
  · rw [← Option.not_isSome_iff_eq_none, decodeWith_isSome_iff_of_main hc, hc, not_and_or]
    cases c <;>
      simp [OpClass.main, OpClass.codes, OpClass.usesOp1, OpClass.usesOp2, imp_iff_not_or]

/-- Settles O43: the default codes of each class are different numbers. -/
theorem defaultSubopMapIsInjective : Obligations.DefaultSubopMapIsInjective := by
  unfold Obligations.DefaultSubopMapIsInjective
  decide

/-- Settles O48: each word is closed, and the decoder is run on it. -/
theorem specWordsDecodeAsTheSpecSays : Obligations.SpecWordsDecodeAsTheSpecSays := by
  unfold Obligations.SpecWordsDecodeAsTheSpecSays
  decide

/-! ### How many first words decode -/

/-- The values an operand nibble may have in a legal word: all, or zero where the class does not use it. -/
def nibbleValues (used : Bool) : Finset (BitVec 4) := if used then Finset.univ else {0}

theorem mem_nibbleValues {used : Bool} {a : BitVec 4} : a ∈ nibbleValues used ↔ (used = false → a = 0) := by
  cases used <;> simp [nibbleValues]

/-- The sub-opcode and the operand nibbles of a class's legal words, under the default SUBOP_MAP. -/
def OpClass.legalFields (c : OpClass) : Finset (BitVec 4 × BitVec 4 × BitVec 4) :=
  (c.codes subopMap).toFinset ×ˢ nibbleValues c.usesOp1 ×ˢ nibbleValues c.usesOp2

theorem decodeValid_iff_of_main {w0 w1 : Word} {c : OpClass} (hc : mainField w0 = c.main) :
    decodeValid w0 w1 = true ↔ (subField w0, op1Field w0, op2Field w0) ∈ c.legalFields := by
  unfold decodeValid decode OpClass.legalFields
  simp only [decodeWith_isSome_iff_of_main hc, Finset.mem_product, List.mem_toFinset, mem_nibbleValues]

/-- The words of one main opcode are told apart by their other three fields. -/
theorem firstWord_injective (main : BitVec 4) :
    Function.Injective fun f : BitVec 4 × BitVec 4 × BitVec 4 => firstWord main f.1 f.2.1 f.2.2 := by
  rintro ⟨s, a, b⟩ ⟨s', a', b'⟩ h
  have hs := congrArg subField h
  have ha := congrArg op1Field h
  have hb := congrArg op2Field h
  simp only [subField_firstWord, op1Field_firstWord, op2Field_firstWord] at hs ha hb
  rw [hs, ha, hb]

theorem validCount_main (c : OpClass) : validCount c.main = c.legalFields.card := by
  rw [validCount, ← Finset.card_image_of_injective c.legalFields (firstWord_injective c.main)]
  congr 1
  ext w
  simp only [Finset.mem_filter, Finset.mem_univ, true_and, Finset.mem_image, Prod.exists]
  constructor
  · rintro ⟨hc, hvalid⟩
    exact ⟨_, _, _, (decodeValid_iff_of_main hc).1 hvalid, hc ▸ firstWord_fields w⟩
  · rintro ⟨s, a, b, hlegal, rfl⟩
    have hc : mainField (firstWord c.main s a b) = c.main := mainField_firstWord _ _ _ _
    exact ⟨hc, (decodeValid_iff_of_main hc).2 (by simpa using hlegal)⟩

theorem validCount_of_illegal_main {main : BitVec 4} (h : main = 0 ∨ 8 ≤ main.toNat) : validCount main = 0 := by
  rw [validCount, Finset.card_eq_zero, Finset.filter_eq_empty_iff]
  rintro w - ⟨rfl, hvalid⟩
  rw [decodeValid, decode, decodeWith_none_of_illegal_main h] at hvalid
  cases hvalid

/-- How many legal words a class has (30_encoding.md section 3). -/
def OpClass.validWords : OpClass → Nat
  | .beltConstant => 48
  | .constant => 4
  | .immediate => 768
  | .register => 2560
  | .branch => 768
  | .unary => 48
  | .zero => 3

/-- The number of a class's codes, times sixteen for each nibble it uses. -/
theorem OpClass.card_legalFields (c : OpClass) : c.legalFields.card = c.validWords := by
  have codes_distinct : (c.codes subopMap).Nodup := by cases c <;> decide
  have sixteen : (nibbleValues true).card = 16 := rfl
  have one : (nibbleValues false).card = 1 := rfl
  rw [OpClass.legalFields, Finset.card_product, Finset.card_product, List.toFinset_card_of_nodup codes_distinct]
  cases c <;> simp only [OpClass.usesOp1, OpClass.usesOp2, sixteen, one] <;> rfl

/-- How many first words with a main opcode decode, as a function that computes. -/
theorem validCount_eq (main : BitVec 4) : validCount main = (OpClass.ofMain main).elim 0 OpClass.validWords := by
  rcases OpClass.main_cases main with illegal | ⟨c, rfl⟩
  · have no_class : OpClass.ofMain main = none := by revert main; decide
    rw [validCount_of_illegal_main illegal, no_class, Option.elim_none]
  · rw [validCount_main, c.card_legalFields, OpClass.ofMain_eq_some_iff.2 rfl, Option.elim_some]

/-- Every valid word is counted at its own main opcode. -/
theorem card_decodeValid : (Finset.univ.filter (fun w : Word => decodeValid w 0 = true)).card =
    ∑ main : BitVec 4, validCount main := by
  rw [Finset.card_eq_sum_card_fiberwise (f := mainField) (t := Finset.univ)
    (fun _ _ => Finset.mem_coe.2 (Finset.mem_univ _))]
  refine Finset.sum_congr rfl fun main _ => ?_
  rw [validCount, Finset.filter_filter]
  simp only [and_comm]

/-- Settles O45: each class by its legal fields, and all words by their main opcodes; what is left is a sum of sixteen
numbers. -/
theorem validFirstWordCounts : Obligations.ValidFirstWordCounts := by
  unfold Obligations.ValidFirstWordCounts
  refine ⟨?_, ?_, ?_, ?_, ?_, ?_, ?_, fun main => validCount_of_illegal_main, ?total⟩
  case total =>
    rw [card_decodeValid]
    simp only [validCount_eq]
    decide
  all_goals
    rw [validCount_eq]
    decide

end Sys2Proof

/-! The software encoder (40_codec_and_step.md R96): the values it accepts are exactly those that name a hardware
instruction. -/

namespace Sys2Proof

/-- The software value that stands for a hardware instruction. -/
def Instr.toSource : Instr → SourceInstr
  | .beltConstantAnd pos const => .beltConstant .and pos.toNat (.constant const.toNat)
  | .beltConstantOr pos const => .beltConstant .or pos.toNat (.constant const.toNat)
  | .beltConstantXor pos const => .beltConstant .xor pos.toNat (.constant const.toNat)
  | .constantLoadFromMemory const => .constant .loadFromMemory (.constant const.toNat)
  | .constantLoadConstant const => .constant .loadConstant (.constant const.toNat)
  | .constantCall const => .constant .call (.constant const.toNat)
  | .constantJump const => .constant .jump (.constant const.toNat)
  | .immediateShiftLeft pos imm => .immediate .shiftLeft pos.toNat imm.toNat
  | .immediateShiftRight pos imm => .immediate .shiftRight pos.toNat imm.toNat
  | .immediateRet pos imm => .immediate .ret pos.toNat imm.toNat
  | .registerAdd pos1 pos2 => .register .add pos1.toNat pos2.toNat
  | .registerSub pos1 pos2 => .register .sub pos1.toNat pos2.toNat
  | .registerMul pos1 pos2 => .register .mul pos1.toNat pos2.toNat
  | .registerDiv pos1 pos2 => .register .div pos1.toNat pos2.toNat
  | .registerAnd pos1 pos2 => .register .and pos1.toNat pos2.toNat
  | .registerOr pos1 pos2 => .register .or pos1.toNat pos2.toNat
  | .registerXor pos1 pos2 => .register .xor pos1.toNat pos2.toNat
  | .registerShiftLeft pos1 pos2 => .register .shiftLeft pos1.toNat pos2.toNat
  | .registerShiftRight pos1 pos2 => .register .shiftRight pos1.toNat pos2.toNat
  | .registerSave pos1 pos2 => .register .save pos1.toNat pos2.toNat
  | .branchLt pos1 pos2 addr => .branch .lt pos1.toNat pos2.toNat (.constant addr.toNat)
  | .branchLe pos1 pos2 addr => .branch .le pos1.toNat pos2.toNat (.constant addr.toNat)
  | .branchEq pos1 pos2 addr => .branch .eq pos1.toNat pos2.toNat (.constant addr.toNat)
  | .unaryLoad pos => .unary .load pos.toNat
  | .unaryJump pos => .unary .jump pos.toNat
  | .unaryPush pos => .unary .push pos.toNat
  | .zeroNop => .zero .nop
  | .zeroPop => .zero .pop
  | .zeroBreak => .zero .break

@[simp] theorem Instr.toSource_ofBeltConstant (op : BeltConstantOp) (pos : BeltPos) (const : Word) :
    (Instr.ofBeltConstant op pos const).toSource = .beltConstant op pos.toNat (.constant const.toNat) := by
  cases op <;> rfl

@[simp] theorem Instr.toSource_ofConstant (op : ConstantOp) (const : Word) :
    (Instr.ofConstant op const).toSource = .constant op (.constant const.toNat) := by
  cases op <;> rfl

@[simp] theorem Instr.toSource_ofImmediate (op : ImmediateOp) (pos : BeltPos) (imm : Imm4) :
    (Instr.ofImmediate op pos imm).toSource = .immediate op pos.toNat imm.toNat := by
  cases op <;> rfl

@[simp] theorem Instr.toSource_ofRegister (op : RegisterOp) (pos1 pos2 : BeltPos) :
    (Instr.ofRegister op pos1 pos2).toSource = .register op pos1.toNat pos2.toNat := by
  cases op <;> rfl

@[simp] theorem Instr.toSource_ofBranch (op : BranchOp) (pos1 pos2 : BeltPos) (addr : Word) :
    (Instr.ofBranch op pos1 pos2 addr).toSource = .branch op pos1.toNat pos2.toNat (.constant addr.toNat) := by
  cases op <;> rfl

@[simp] theorem Instr.toSource_ofUnary (op : UnaryOp) (pos : BeltPos) :
    (Instr.ofUnary op pos).toSource = .unary op pos.toNat := by
  cases op <;> rfl

@[simp] theorem Instr.toSource_ofZero (op : ZeroOp) : (Instr.ofZero op).toSource = .zero op := by
  cases op <;> rfl

/-- A field that passes the range check is a 4-bit value. -/
theorem nibbleInRange_iff {n : Nat} : nibbleInRange n = true ↔ ∃ p : BitVec 4, n = p.toNat := by
  unfold nibbleInRange
  rw [decide_eq_true_iff]
  constructor
  · exact fun h => ⟨BitVec.ofNat 4 n, by simp [Nat.mod_eq_of_lt h]⟩
  · rintro ⟨p, rfl⟩
    exact p.isLt

/-- A constant that passes the range check is a resolved 16-bit value. -/
theorem ConstantOrLabel.inRange_iff {c : ConstantOrLabel} : c.inRange = true ↔ ∃ k : Word, c = .constant k.toNat := by
  cases c with
  | label name => simp [ConstantOrLabel.inRange]
  | constant v =>
    simp only [ConstantOrLabel.inRange, decide_eq_true_iff, ConstantOrLabel.constant.injEq]
    constructor
    · exact fun h => ⟨BitVec.ofNat 16 v, by simp [Nat.mod_eq_of_lt h]⟩
    · rintro ⟨k, rfl⟩
      exact k.isLt

/-- The well-formed values are those that stand for a hardware instruction. -/
theorem SourceInstr.wellFormed_iff {src : SourceInstr} : src.wellFormed = true ↔ ∃ i : Instr, src = i.toSource := by
  constructor
  · intro h
    cases src <;>
      simp only [SourceInstr.wellFormed, Bool.and_eq_true, nibbleInRange_iff, ConstantOrLabel.inRange_iff] at h
    case beltConstant op _ _ =>
      obtain ⟨⟨p, rfl⟩, k, rfl⟩ := h
      exact ⟨Instr.ofBeltConstant op p k, by simp⟩
    case constant op _ =>
      obtain ⟨k, rfl⟩ := h
      exact ⟨Instr.ofConstant op k, by simp⟩
    case immediate op _ _ =>
      obtain ⟨⟨p, rfl⟩, imm, rfl⟩ := h
      exact ⟨Instr.ofImmediate op p imm, by simp⟩
    case register op _ _ =>
      obtain ⟨⟨p, rfl⟩, q, rfl⟩ := h
      exact ⟨Instr.ofRegister op p q, by simp⟩
    case branch op _ _ _ =>
      obtain ⟨⟨⟨p, rfl⟩, q, rfl⟩, k, rfl⟩ := h
      exact ⟨Instr.ofBranch op p q k, by simp⟩
    case unary op _ =>
      obtain ⟨p, rfl⟩ := h
      exact ⟨Instr.ofUnary op p, by simp⟩
    case zero op => exact ⟨Instr.ofZero op, by simp⟩
  · rintro ⟨i, rfl⟩
    have nibble (p : BitVec 4) : nibbleInRange p.toNat = true := nibbleInRange_iff.2 ⟨p, rfl⟩
    have word (k : Word) : (ConstantOrLabel.constant k.toNat).inRange = true := ConstantOrLabel.inRange_iff.2 ⟨k, rfl⟩
    induction i using Instr.byClass <;> simp [SourceInstr.wellFormed, nibble, word]

theorem nibbleOf_eq_ok_iff {n : Nat} {p : BitVec 4} : nibbleOf n = .ok p ↔ n = p.toNat := by
  unfold nibbleOf
  split
  · next h =>
    obtain ⟨q, rfl⟩ := nibbleInRange_iff.1 h
    simp [BitVec.toNat_inj]
  · next h => simpa using fun e => h (nibbleInRange_iff.2 ⟨p, e⟩)

theorem constantOf_eq_ok_iff {c : ConstantOrLabel} {k : Word} : constantOf c = .ok k ↔ c = .constant k.toNat := by
  cases c with
  | label name => simp [constantOf]
  | constant v =>
    simp only [constantOf, ConstantOrLabel.constant.injEq]
    split
    · next h =>
      rw [Except.ok.injEq, ← BitVec.toNat_inj, BitVec.toNat_ofNat, Nat.mod_eq_of_lt h]
    · next h => simpa using fun e : v = k.toNat => h (e ▸ k.isLt)

/-- The encoder's reading of a software value, both ways: it stands for an instruction exactly when it is the value the
instruction stands for. -/
theorem SourceInstr.resolve_eq_ok_iff {src : SourceInstr} {i : Instr} : src.resolve = .ok i ↔ src = i.toSource := by
  constructor
  · intro h
    cases src <;> simp only [SourceInstr.resolve] at h
    case beltConstant =>
      split at h <;> cases h
      next p k hp hk => simp [nibbleOf_eq_ok_iff.1 hp, constantOf_eq_ok_iff.1 hk]
    case constant =>
      split at h <;> cases h
      next k hk => simp [constantOf_eq_ok_iff.1 hk]
    case immediate =>
      split at h <;> cases h
      next p imm hp himm => simp [nibbleOf_eq_ok_iff.1 hp, nibbleOf_eq_ok_iff.1 himm]
    case register =>
      split at h <;> cases h
      next p q hp hq => simp [nibbleOf_eq_ok_iff.1 hp, nibbleOf_eq_ok_iff.1 hq]
    case branch =>
      split at h <;> cases h
      next p q k hp hq hk =>
        simp [nibbleOf_eq_ok_iff.1 hp, nibbleOf_eq_ok_iff.1 hq, constantOf_eq_ok_iff.1 hk]
    case unary =>
      split at h <;> cases h
      next p hp => simp [nibbleOf_eq_ok_iff.1 hp]
    case zero =>
      cases h
      simp
  · rintro rfl
    have nibble (p : BitVec 4) : nibbleOf p.toNat = .ok p := nibbleOf_eq_ok_iff.2 rfl
    have word (k : Word) : constantOf (.constant k.toNat) = .ok k := constantOf_eq_ok_iff.2 rfl
    induction i using Instr.byClass <;> simp [SourceInstr.resolve, nibble, word]

theorem encodeSource_eq_ok_iff {src : SourceInstr} {ws : Word × Option Word} :
    encodeSource src = .ok ws ↔ ∃ i : Instr, src = i.toSource ∧ encode i = ws := by
  simp only [← SourceInstr.resolve_eq_ok_iff]
  unfold encodeSource
  cases src.resolve with
  | ok i => simp
  | error e => simp

/-- Two instructions with the same words are the same instruction: they decode alike. -/
theorem encode_injective : Function.Injective encode := by
  intro i j h
  have decodes (i : Instr) : decodeWith subopMap (encode i).1 ((encode i).2.getD 0) = some (i, i.words) :=
    decodeWith_encodeWith defaultSubopMapIsInjective i 0
  have same := (decodes i).symm.trans (h ▸ decodes j)
  exact (Prod.mk.inj (Option.some.inj same)).1

/-- Settles O49: the accepted values are those of instructions, and an instruction's words determine it. -/
theorem sourceEncoderRefusesAndNeverTruncates : Obligations.SourceEncoderRefusesAndNeverTruncates := by
  unfold Obligations.SourceEncoderRefusesAndNeverTruncates
  refine ⟨fun src => ?accepted, fun op name => rfl, fun src src' ws h h' => ?injective⟩
  case accepted =>
    rw [SourceInstr.wellFormed_iff]
    simp only [encodeSource_eq_ok_iff]
    constructor
    · rintro ⟨ws, i, hsrc, -⟩
      exact ⟨i, hsrc⟩
    · rintro ⟨i, hsrc⟩
      exact ⟨encode i, i, hsrc, rfl⟩
  case injective =>
    obtain ⟨i, rfl, hi⟩ := encodeSource_eq_ok_iff.1 h
    obtain ⟨j, rfl, hj⟩ := encodeSource_eq_ok_iff.1 h'
    rw [encode_injective (hi.trans hj.symm)]

end Sys2Proof

/-! Rows of stack pushes and pops (20_memory.md R47, R48). -/

namespace Sys2Proof.Machine

open Sys2Proof.Claims

/-- A stack push at any sp: the word stands at the old sp, which is one above the new one. -/
theorem State.memRead_top_stackPush {s : State} (hwf : s.mem.wf = true) (v : Word) :
    (s.stackPush v).memRead ((s.stackPush v).sp + 1) = v :=
  (State.stackPop_stackPush hwf v).1

theorem State.stackPush_sp_wraps (s : State) (v : Word) : (s.stackPush v).sp.toNat = (s.sp.toNat + 65535) % 65536 := by
  rw [State.stackPush_sp]
  bv_omega

/-- Settles O7: the rules for one push, and for the reset state the same rules at its sp. -/
theorem stackPushWritesThenDecrements : Obligations.StackPushWritesThenDecrements := by
  unfold Obligations.StackPushWritesThenDecrements
  refine ⟨fun s v hwf => ?general, fun v => ?reset⟩
  case general =>
    exact ⟨State.memRead_stackPush hwf v, State.stackPush_sp_wraps s v, State.memRead_top_stackPush hwf v,
      fun i _ => State.stackPush_peek s v i, State.stackPush_pc s v⟩
  case reset =>
    have top_written : (State.reset.stackPush v).memRead State.reset.sp = v := by
      rw [State.memRead_stackPush State.reset_mem_wf, if_pos rfl]
    exact ⟨top_written, rfl⟩

/-- The latest push of a row is its last. -/
theorem stackPushes_concat (s : State) (vs : List Word) (v : Word) :
    stackPushes s (vs ++ [v]) = (stackPushes s vs).stackPush v := by
  simp only [stackPushes, List.foldl_append, List.foldl_cons, List.foldl_nil]

@[simp] theorem stackPushes_belt (s : State) (vs : List Word) : (stackPushes s vs).belt = s.belt := by
  induction vs using List.reverseRecOn with
  | nil => rfl
  | append_singleton vs v ih => rw [stackPushes_concat, State.stackPush_belt, ih]

@[simp] theorem stackPushes_pc (s : State) (vs : List Word) : (stackPushes s vs).pc = s.pc := by
  induction vs using List.reverseRecOn with
  | nil => rfl
  | append_singleton vs v ih => rw [stackPushes_concat, State.stackPush_pc, ih]

theorem stackPushes_sp (s : State) (vs : List Word) : (stackPushes s vs).sp = s.sp - BitVec.ofNat 16 vs.length := by
  induction vs using List.reverseRecOn with
  | nil => simp [stackPushes]
  | append_singleton vs v ih =>
    rw [stackPushes_concat, State.stackPush_sp, ih, List.length_append, List.length_singleton]
    bv_omega

theorem stackPushes_wf {s : State} (hwf : s.mem.wf = true) (vs : List Word) : (stackPushes s vs).mem.wf = true := by
  induction vs using List.reverseRecOn with
  | nil => exact hwf
  | append_singleton vs v ih => rw [stackPushes_concat]; exact State.stackPush_wf ih v

/-- Where a row of pushes puts its words: the first at the old sp, each next one below. As long as the row does not run
around the whole memory, no push overwrites an earlier one. -/
theorem memRead_stackPushes {s : State} (hwf : s.mem.wf = true) {vs : List Word} (hlen : vs.length ≤ 65536) {k : Nat}
    (hk : k < vs.length) : (stackPushes s vs).memRead (s.sp - BitVec.ofNat 16 k) = vs[k] := by
  induction vs using List.reverseRecOn with
  | nil => cases hk
  | append_singleton vs v ih =>
    rw [List.length_append, List.length_singleton] at hlen hk
    rw [stackPushes_concat, State.memRead_stackPush (stackPushes_wf hwf vs), stackPushes_sp]
    by_cases hlast : k = vs.length
    · subst hlast
      simp
    · have not_overwritten : s.sp - BitVec.ofNat 16 k ≠ s.sp - BitVec.ofNat 16 vs.length := by bv_omega
      rw [if_neg not_overwritten, ih (by omega) (by omega), List.getElem_append_left]

/-- Settles O8: the `k`-th pop reads the word the push `k` before the last put there. -/
theorem popsReturnPushedWordsInReverse : Obligations.PopsReturnPushedWordsInReverse := by
  unfold Obligations.PopsReturnPushedWordsInReverse
  intro s vs hwf hlen
  obtain ⟨popped_length, popped, hsp, hmem, hbelt, hpc⟩ := State.popMany_spec vs.length (stackPushes s vs)
  refine ⟨?reverse, ?sp, fun a => ?memory, fun i _ => ?belt, ?pc⟩
  case reverse =>
    refine List.ext_getElem (by rw [popped_length, List.length_reverse]) fun k hk _ => ?_
    rw [popped_length] at hk
    have address : (stackPushes s vs).sp + BitVec.ofNat 16 (k + 1) = s.sp - BitVec.ofNat 16 (vs.length - 1 - k) := by
      rw [stackPushes_sp]
      bv_omega
    rw [List.getElem_reverse, ← memRead_stackPushes hwf hlen (by omega), ← address, ← popped k hk]
    exact List.getElem_eq_getD 0
  case sp =>
    rw [hsp, stackPushes_sp]
    bv_omega
  case memory => rw [State.memRead, hmem, State.memRead]
  case belt => rw [State.peek, hbelt, stackPushes_belt, State.peek]
  case pc => rw [hpc, stackPushes_pc]

end Sys2Proof.Machine

/-! Rows of belt pushes (10_state.md section 2), on the logical belt and on the ring. -/

namespace Sys2Proof.Machine

open Sys2Proof.Claims

theorem Belt.foldl_push_concat (b : Belt) (vs : List Word) (v : Word) :
    (vs ++ [v]).foldl Belt.push b = (vs.foldl Belt.push b).push v := by
  rw [List.foldl_append, List.foldl_cons, List.foldl_nil]

/-- Position `i` holds the value pushed `i` pushes ago (10_state.md R22). -/
theorem Belt.peek_foldl_push_newest (b : Belt) {vs : List Word} {i : Nat} (hi : i < 16) (hlen : i < vs.length) :
    (vs.foldl Belt.push b).peek i = vs.getD (vs.length - 1 - i) 0 := by
  induction vs using List.reverseRecOn generalizing i with
  | nil => cases hlen
  | append_singleton vs v ih =>
    rw [List.length_append, List.length_singleton] at hlen ⊢
    rw [Belt.foldl_push_concat]
    cases i with
    | zero => simp
    | succ i =>
      rw [Belt.peek_push_succ _ v (by omega), ih (by omega) (by omega), List.getD_append _ _ _ _ (by omega)]
      congr 1
      omega

/-- What was on the belt stands behind the pushed values until it falls off. -/
theorem Belt.peek_foldl_push_older (b : Belt) {vs : List Word} {j : Nat} (hj : vs.length + j < 16) :
    (vs.foldl Belt.push b).peek (vs.length + j) = b.peek j := by
  induction vs using List.reverseRecOn with
  | nil => rw [List.foldl_nil, List.length_nil, Nat.zero_add]
  | append_singleton vs v ih =>
    rw [List.length_append, List.length_singleton] at hj ⊢
    rw [Belt.foldl_push_concat, Nat.add_right_comm, Belt.peek_push_succ _ v (by omega), ih (by omega)]

/-- The index wraps modulo 16 (10_state.md R24). -/
theorem Belt.peek_add_sixteen (b : Belt) (i : Nat) : b.peek (i + 16) = b.peek i := by
  rw [← Belt.peek_mod, Nat.add_mod_right, Belt.peek_mod]

/-- Settles O10. -/
theorem beltRotatesWithPushes : Obligations.BeltRotatesWithPushes := by
  unfold Obligations.BeltRotatesWithPushes
  exact fun b vs => ⟨fun _ => Belt.peek_foldl_push_newest b, fun _ => Belt.peek_foldl_push_older b,
    Belt.peek_add_sixteen _⟩

theorem Ring.peek_mod (r : Ring) (i : Nat) : r.peek (i % 16) = r.peek i := by
  simp only [Ring.peek, Nat.add_mod_mod]

/-- Under `b[i] = A[(start + i) mod 16]` the two peeks agree (10_state.md R25). -/
theorem Ring.logical_peek (r : Ring) (i : Nat) : r.logical.peek i = r.peek i := by
  rw [← Belt.peek_mod, Ring.logical, Belt.peek_tabulate _ (Nat.mod_lt i (by decide)), Ring.peek_mod]

theorem Ring.peek_push_zero (r : Ring) (v : Word) : (r.push v).peek 0 = v := by
  simp [Ring.peek, Ring.push]

/-- The slot a push overwrites is the one fifteen positions behind the old start, which no other position shares. -/
theorem Ring.peek_push_succ (r : Ring) (v : Word) {i : Nat} (hi : i < 15) : (r.push v).peek (i + 1) = r.peek i := by
  have slot : ((r.start.val + 15) % 16 + (i + 1)) % 16 = (r.start.val + i) % 16 := by omega
  have other : (r.start.val + 15) % 16 ≠ (r.start.val + i) % 16 := by omega
  simp only [Ring.peek, Ring.push, slot, Vector.getElem_set_ne _ _ other]

/-- A ring push is a logical push. -/
theorem Ring.logical_push (r : Ring) (v : Word) : (r.push v).logical = r.logical.push v := by
  refine Belt.ext_peek fun i hi => ?_
  rw [Ring.logical_peek]
  cases i with
  | zero => rw [Ring.peek_push_zero, Belt.peek_push_zero]
  | succ i => rw [Ring.peek_push_succ r v (by omega), Belt.peek_push_succ _ v (by omega), Ring.logical_peek]

theorem Ring.logical_foldl_push (vs : List Word) (r : Ring) :
    (vs.foldl Ring.push r).logical = vs.foldl Belt.push r.logical := by
  induction vs generalizing r with
  | nil => rfl
  | cons v vs ih => rw [List.foldl_cons, List.foldl_cons, ih, Ring.logical_push]

/-- Settles O11. -/
theorem ringBufferRefinesTheBelt : Obligations.RingBufferRefinesTheBelt := by
  unfold Obligations.RingBufferRefinesTheBelt
  exact ⟨fun r i => (Ring.logical_peek r i).symm, Ring.logical_foldl_push, rfl⟩

end Sys2Proof.Machine

/-! What the host puts into memory between steps: a program from address 0 (70_reset_and_hazards.md R213) and a snapshot
(10_state.md R37). -/

namespace Sys2Proof.Machine

/-- What a row of words written upward from `a` leaves in memory: an address fewer than the row's length above `a` holds
its word of the row, any other is as before. The row must not run around the whole memory. -/
theorem State.memRead_loadWordsAt (words : List Word) (hlen : words.length ≤ 65536) :
    ∀ {s : State} (a c : Word), s.mem.wf = true → (s.loadWordsAt a words).memRead c =
      if (c - a).toNat < words.length then words.getD (c - a).toNat 0 else s.memRead c := by
  induction words with
  | nil => exact fun a c _ => rfl
  | cons w rest ih =>
    intro s a c hwf
    rw [List.length_cons] at hlen
    rw [State.loadWordsAt, ih (by omega) (a + 1) c (State.memWrite_wf hwf a w), State.memRead_memWrite hwf]
    by_cases hca : c = a
    · have behind : ¬ (c - (a + 1)).toNat < rest.length := by bv_omega
      have first : (c - a).toNat = 0 := by bv_omega
      rw [if_neg behind, if_pos hca, if_pos (by rw [first, List.length_cons]; omega), first, List.getD_cons_zero]
    · have next : (c - a).toNat = (c - (a + 1)).toNat + 1 := by bv_omega
      rw [if_neg hca, next, List.getD_cons_succ, List.length_cons]
      simp only [Nat.add_lt_add_iff_right]

@[simp] theorem State.loadWordsAt_belt (words : List Word) : ∀ (s : State) (a : Word),
    (s.loadWordsAt a words).belt = s.belt := by
  induction words with
  | nil => exact fun s a => rfl
  | cons w rest ih => exact fun s a => ih (s.memWrite a w) (a + 1)

@[simp] theorem State.loadWordsAt_pc (words : List Word) : ∀ (s : State) (a : Word),
    (s.loadWordsAt a words).pc = s.pc := by
  induction words with
  | nil => exact fun s a => rfl
  | cons w rest ih => exact fun s a => ih (s.memWrite a w) (a + 1)

@[simp] theorem State.loadWordsAt_sp (words : List Word) : ∀ (s : State) (a : Word),
    (s.loadWordsAt a words).sp = s.sp := by
  induction words with
  | nil => exact fun s a => rfl
  | cons w rest ih => exact fun s a => ih (s.memWrite a w) (a + 1)

/-- A program loaded from address 0 stands word `k` at address `k`. -/
theorem State.memRead_loadProgram {s : State} (hwf : s.mem.wf = true) {words : List Word} (hlen : words.length ≤ 65536)
    (a : Word) : (s.loadProgram words).memRead a =
      if a.toNat < words.length then words.getD a.toNat 0 else s.memRead a := by
  rw [State.loadProgram, State.memRead_loadWordsAt words hlen 0 a hwf, sub_zero]

/-- Settles O50. -/
theorem loadedProgramStandsAtZero : Obligations.LoadedProgramStandsAtZero := by
  unfold Obligations.LoadedProgramStandsAtZero
  intro s words hwf hlen
  refine ⟨fun k hk => ?inside, fun a ha => ?outside, State.loadWordsAt_belt words s 0, State.loadWordsAt_pc words s 0,
    State.loadWordsAt_sp words s 0⟩
  case inside =>
    have address : (BitVec.ofNat 16 k).toNat = k := by rw [BitVec.toNat_ofNat, Nat.mod_eq_of_lt (by omega)]
    rw [State.memRead_loadProgram hwf hlen, address, if_pos hk]
  case outside => rw [State.memRead_loadProgram hwf hlen, if_neg (by omega)]

/-- Loaded over reset memory, an address behind the program reads as zero. -/
theorem State.memRead_reset_loadProgram {words : List Word} (hlen : words.length ≤ 65536) (a : Word) :
    (State.reset.loadProgram words).memRead a = words.getD a.toNat 0 := by
  rw [State.memRead_loadProgram State.reset_mem_wf hlen]
  split
  · rfl
  · next behind => rw [List.getD_eq_default _ _ (by omega), State.memRead_reset]; rfl

/-- Settles O52: the snapshot's fields are set over a program load at reset. -/
theorem snapshotHoldsWhatItIsGiven : Obligations.SnapshotHoldsWhatItIsGiven := by
  unfold Obligations.SnapshotHoldsWhatItIsGiven
  intro belt memory pc sp hlen
  refine ⟨fun i hi => ?belt, fun a => ?memory, rfl, rfl⟩
  case belt => simp only [State.ofSnapshot, State.peek, State.setSp_belt, State.setPc_belt, State.setBelt_belt,
    Belt.peek, Nat.mod_eq_of_lt hi]
  case memory => exact State.memRead_reset_loadProgram hlen a

/-- A step whose fetched words decode runs the instruction they decode to (40_codec_and_step.md R99). -/
theorem step_of_decode_some {s : State} {i : Instr} {n : Nat} (hdec : decode s.fetch.1 s.fetch.2 = some (i, n)) :
    step s = exec i s := by
  obtain ⟨fails, -⟩ | ⟨j, k, decodes, executes⟩ := step_cases s
  · cases fails.symm.trans hdec
  · cases decodes.symm.trans hdec
    exact executes

/-- Settles O29: the two words at pc are those the step fetches. -/
theorem stepRunsTheDecodedInstruction : Obligations.StepRunsTheDecodedInstruction := by
  unfold Obligations.StepRunsTheDecodedInstruction
  exact fun s => ⟨fun i n => step_of_decode_some (s := s), step_of_decode_none (s := s)⟩

/-- Settles O51: the first fetch reads the loaded words, or zero behind a one-word instruction, and they decode to it. -/
theorem loadedInstructionIsTheFirstExecuted : Obligations.LoadedInstructionIsTheFirstExecuted := by
  unfold Obligations.LoadedInstructionIsTheFirstExecuted
  intro i
  have short : (encodeWords i).length ≤ 65536 := by
    unfold encodeWords
    cases (encode i).2 <;> simp
  have second_word : (encodeWords i).getD 1 0 = (encode i).2.getD 0 := by
    unfold encodeWords
    cases (encode i).2 <;> rfl
  have at_zero : (State.reset.loadProgram (encodeWords i)).pc = 0x0000#16 :=
    State.loadWordsAt_pc (encodeWords i) State.reset 0
  have fetched : (State.reset.loadProgram (encodeWords i)).fetch = ((encode i).1, (encode i).2.getD 0) := by
    rw [State.fetch_eq, at_zero, State.memRead_reset_loadProgram short, State.memRead_reset_loadProgram short,
      ← second_word]
    rfl
  have decodes : decode (encode i).1 ((encode i).2.getD 0) = some (i, i.words) :=
    decodeWith_encodeWith defaultSubopMapIsInjective i 0
  exact step_of_decode_some (by rw [fetched]; exact decodes)

end Sys2Proof.Machine

/-! The frames of execution: what no instruction, or only a named one, changes (10_state.md sections 2 to 4, 20_memory.md
section 4). Each is a fact about the ten effects. -/

namespace Sys2Proof.Machine

open Sys2Proof.Claims

/-- A spill stores at the `n` addresses from sp downward and nowhere else, whatever the memory. -/
theorem State.memRead_spill_other (b : Belt) : ∀ (n : Nat) {s : State} {c : Word},
    (∀ i, i < n → c ≠ s.sp - BitVec.ofNat 16 i) → (State.spill b n s).memRead c = s.memRead c
  | 0, _, _, _ => rfl
  | n + 1, s, c, hc => by
    have not_top : c ≠ s.sp := by simpa using hc 0 (Nat.succ_pos n)
    have not_below (i : Nat) (hi : i < n) : c ≠ (s.stackPush (b.peek n)).sp - BitVec.ofNat 16 i := by
      have := hc (i + 1) (by omega)
      rw [State.stackPush_sp]
      bv_omega
    calc (State.spill b n (s.stackPush (b.peek n))).memRead c
        = (s.stackPush (b.peek n)).memRead c := State.memRead_spill_other b n not_below
      _ = s.memRead c := Memory.read_write_other s.mem not_top _

/-- Pushing a row again is that row of belt pushes, the oldest first (43_immediate.md R133). -/
theorem State.repush_belt (snap : Belt) : ∀ (n : Nat) (s : State),
    (State.repush snap n s).belt = ((List.range n).reverse.map snap.peek).foldl Belt.push s.belt
  | 0, _ => rfl
  | n + 1, s => by
    rw [List.range_succ, List.reverse_concat, List.map_cons, List.foldl_cons]
    exact State.repush_belt snap n (s.push (snap.peek n))

/-- A Ret loads the whole belt from the popped words, then pushes the callee's values (43_immediate.md R133). -/
theorem returnWith_belt (n : Nat) (s : State) : (returnWith n s).state.belt =
    ((List.range n).reverse.map s.peek).foldl Belt.push
      (Belt.tabulate fun k => (State.popMany 16 s).1.getD k 0) :=
  State.repush_belt s.belt n _

theorem pushed_push (s : State) (v : Word) : Pushed s (s.push v) v :=
  ⟨State.peek_push_zero s v, fun _ hi => State.peek_push_succ s v hi⟩

/-- Belts are compared by what they hold, so equal belts are the same belt and one push is one push. -/
theorem sameBelt_of_belt_eq {s t : State} (h : t.belt = s.belt) : SameBelt s t := fun i _ => by
  rw [State.peek, h, State.peek]

theorem pushed_of_belt_eq {s t : State} {v : Word} (h : t.belt = s.belt.push v) : Pushed s t v := by
  have peeks (i : Nat) : t.peek i = (s.push v).peek i := by rw [State.peek, h]; rfl
  simpa only [Pushed, peeks] using pushed_push s v

/-- What an instruction does to the belt: Ret's load and pushes, nothing, or one push (10_state.md section 2). -/
theorem Effect.belt_cases {s : State} {i : Instr} {e : Executed} (h : Effect s i e) :
    (∃ pos imm, i = .immediateRet pos imm ∧ e = returnWith imm.toNat s) ∨
      e.state.belt = s.belt ∨ ∃ v, e.state.belt = s.belt.push v := by
  cases h with
  | ret pos imm => exact .inl ⟨pos, imm, rfl, rfl⟩
  | value v | pop => exact .inr (.inr ⟨_, rfl⟩)
  | proceed | jump | save | push | halt | divideByZero => exact .inr (.inl rfl)
  | call => exact .inr (.inl (State.spill_belt s.belt 16 s))

/-- Settles O9. -/
theorem beltChangesOnlyByPushes : Obligations.BeltChangesOnlyByPushes := by
  unfold Obligations.BeltChangesOnlyByPushes
  refine ⟨pushed_push, fun i s t hexec => ?_⟩
  obtain ⟨a, rfl⟩ := state_of_exec_next hexec
  rcases (execute_effect i s).belt_cases with ⟨pos, imm, rfl, hret⟩ | unchanged | ⟨v, one_push⟩
  · refine .inl ⟨pos, imm, rfl, fun k => (State.popMany 16 s).1.getD k 0, ?_⟩
    rw [State.setPc_belt, hret, returnWith_belt]
  · exact .inr (.inl (sameBelt_of_belt_eq unchanged))
  · exact .inr (.inr ⟨v, pushed_of_belt_eq one_push⟩)

theorem Effect.memRead_eq {s : State} {i : Instr} {e : Executed} (h : Effect s i e) {a : Word}
    (ha : a ∉ storedTo i s) : e.state.memRead a = s.memRead a := by
  cases h with
  | value | proceed | jump | pop | halt | divideByZero => rfl
  | call =>
    refine State.memRead_spill_other s.belt 16 fun i hi heq => ha ?_
    exact List.mem_map.2 ⟨15 - i, List.mem_range.2 (by omega), by
      rw [spillAddress, heq, show 15 - (15 - i) = i by omega]⟩
  | ret _ imm =>
    obtain ⟨-, -, -, -, hmem, -⟩ := returnWith_spec (imm4_le_sixteen imm) s
    rw [State.memRead, hmem, State.memRead]
  | save pos1 pos2 => exact State.memRead_memWrite_other s (fun heq => ha (List.mem_singleton.2 heq)) _
  | push pos => exact State.memRead_memWrite_other s (fun heq => ha (List.mem_singleton.2 heq)) _

/-- Settles O39. -/
theorem onlyStoringInstructionsChangeMemory : Obligations.OnlyStoringInstructionsChangeMemory := by
  unfold Obligations.OnlyStoringInstructionsChangeMemory
  intro i s t hexec a ha
  obtain ⟨b, rfl⟩ := state_of_exec_next hexec
  exact (execute_effect i s).memRead_eq ha

theorem Effect.sp_eq {s : State} {i : Instr} {e : Executed} (h : Effect s i e) : e.state.sp = spAfter i s := by
  cases h with
  | value _ hi | proceed hi | jump _ hi => exact hi.sp.symm
  | call => exact State.spill_sp s.belt 16 s
  | ret _ imm =>
    obtain ⟨-, -, -, hsp, -, -⟩ := returnWith_spec (imm4_le_sixteen imm) s
    exact hsp
  | save | push | pop | halt | divideByZero => rfl

/-- Settles O40. -/
theorem onlyStackInstructionsChangeSp : Obligations.OnlyStackInstructionsChangeSp := by
  unfold Obligations.OnlyStackInstructionsChangeSp
  intro i s t hexec
  obtain ⟨a, rfl⟩ := state_of_exec_next hexec
  exact (execute_effect i s).sp_eq

theorem Effect.pc_eq {s : State} {i : Instr} {e : Executed} (h : Effect s i e) : e.state.pc = s.pc := by
  cases h with
  | value | proceed | jump | save | push | pop | halt | divideByZero => rfl
  | call => exact State.spill_pc s.belt 16 s
  | ret _ imm =>
    obtain ⟨-, -, -, -, -, hpc⟩ := returnWith_spec (imm4_le_sixteen imm) s
    exact hpc

end Sys2Proof.Machine

/-! The results of instructions and steps (40_codec_and_step.md section 4, 60_exceptions.md section 1). -/

namespace Sys2Proof.Machine

open Sys2Proof.Claims

theorem Effect.mayReturn {s : State} {i : Instr} {e : Executed} (h : Effect s i e) : MayReturn i e.result := by
  cases h with
  | value _ hi | proceed hi | jump _ hi => exact hi.result
  | call | save | push | pop | halt => rfl
  | ret _ imm =>
    obtain ⟨hresult, -⟩ := returnWith_spec (imm4_le_sixteen imm) s
    exact ⟨_, hresult⟩
  | divideByZero => exact .inr rfl

/-- Settles O33. -/
theorem resultsByInstruction : Obligations.ResultsByInstruction := by
  unfold Obligations.ResultsByInstruction
  exact fun i s => (execute_effect i s).mayReturn

/-- How an instruction ends: it goes on, or it is one of the two that halt and changes nothing (60_exceptions.md R191,
R192). -/
theorem Effect.ends {s : State} {i : Instr} {e : Executed} (h : Effect s i e) :
    e.result = .cont ∨ (∃ dest, e.result = .jump dest) ∨ (i = .zeroBreak ∧ e = ⟨.stop, s⟩) ∨
      ((∃ pos1 pos2, i = .registerDiv pos1 pos2 ∧ s.peek pos2.toNat = 0) ∧ e = ⟨.fail, s⟩) := by
  cases h with
  | value | proceed | save | push | pop => exact .inl rfl
  | jump dest | call dest => exact .inr (.inl ⟨dest, rfl⟩)
  | ret _ imm =>
    obtain ⟨hresult, -⟩ := returnWith_spec (imm4_le_sixteen imm) s
    exact .inr (.inl ⟨_, hresult⟩)
  | halt => exact .inr (.inr (.inl ⟨rfl, rfl⟩))
  | divideByZero pos1 pos2 hzero => exact .inr (.inr (.inr ⟨⟨pos1, pos2, rfl, hzero⟩, rfl⟩))

theorem execute_registerDiv_zero {s : State} {pos1 pos2 : BeltPos} (hzero : s.peek pos2.toNat = 0) :
    execute (.registerDiv pos1 pos2) s = ⟨.fail, s⟩ :=
  if_pos hzero

theorem execute_zeroBreak (s : State) : execute .zeroBreak s = ⟨.stop, s⟩ := rfl

theorem execute_fail_iff {i : Instr} {s : State} : (execute i s).result = .fail ↔
    ∃ pos1 pos2, i = .registerDiv pos1 pos2 ∧ s.peek pos2.toNat = 0 := by
  constructor
  · intro hfail
    rcases (execute_effect i s).ends with h | ⟨dest, h⟩ | ⟨-, h⟩ | ⟨divides, -⟩
    · cases h.symm.trans hfail
    · cases h.symm.trans hfail
    · rw [h] at hfail; cases hfail
    · exact divides
  · rintro ⟨pos1, pos2, rfl, hzero⟩
    rw [execute_registerDiv_zero hzero]

theorem execute_stop_iff {i : Instr} {s : State} : (execute i s).result = .stop ↔ i = .zeroBreak := by
  constructor
  · intro hstop
    rcases (execute_effect i s).ends with h | ⟨dest, h⟩ | ⟨breaks, -⟩ | ⟨-, h⟩
    · cases h.symm.trans hstop
    · cases h.symm.trans hstop
    · exact breaks
    · rw [h] at hstop; cases hstop
  · rintro rfl
    rfl

@[simp] theorem updatePc_result (n : Nat) (e : Executed) : (updatePc n e).result = e.result := by
  obtain ⟨r, s⟩ := e
  cases r <;> rfl

@[simp] theorem updatePc_stop (n : Nat) (s : State) : updatePc n ⟨.stop, s⟩ = ⟨.stop, s⟩ := rfl
@[simp] theorem updatePc_fail (n : Nat) (s : State) : updatePc n ⟨.fail, s⟩ = ⟨.fail, s⟩ := rfl

theorem stepWithResult_of_decode_some {s : State} {i : Instr} {n : Nat}
    (hdec : decode s.fetch.1 s.fetch.2 = some (i, n)) : stepWithResult s = updatePc n (execute i s) := by
  obtain ⟨fails, -⟩ | ⟨j, k, decodes, executes⟩ := stepWithResult_cases s
  · cases fails.symm.trans hdec
  · cases decodes.symm.trans hdec
    exact executes

/-- The length the decoder tells is the instruction's own. -/
theorem words_of_decode {w0 w1 : Word} {i : Instr} {n : Nat} (hdec : decode w0 w1 = some (i, n)) : n = i.words := by
  obtain ⟨c, -, hto, rfl⟩ := decodeWith_eq_some_iff.1 hdec
  rw [Instr.words, hto.opClass_eq]

/-- Settles O32: the host completes an instruction past its own words, which is the length the decoder tells. -/
theorem stepAgreesWithTheSpecStep : Obligations.StepAgreesWithTheSpecStep := by
  unfold Obligations.StepAgreesWithTheSpecStep
  intro s
  cases hdec : decode s.fetch.1 s.fetch.2 with
  | none =>
    rw [step_of_decode_none hdec, stepWithResult_of_decode_none hdec]
    rfl
  | some r =>
    obtain ⟨i, n⟩ := r
    rw [step_of_decode_some hdec, stepWithResult_of_decode_some hdec, exec_eq_complete, words_of_decode hdec, complete]

theorem toOutcome_fail_iff {e : Executed} : toOutcome e = .fault .fail ↔ e.result = .fail := by
  obtain ⟨r, s⟩ := e
  cases r <;> simp [toOutcome]

theorem toOutcome_stop_iff {e : Executed} : toOutcome e = .fault .stop ↔ e.result = .stop := by
  obtain ⟨r, s⟩ := e
  cases r <;> simp [toOutcome]

theorem toOutcome_ne_refused (e : Executed) (r : Refusal) : toOutcome e ≠ .refused r := by
  obtain ⟨r', s⟩ := e
  cases r' <;> simp [toOutcome]

theorem safeOutcome_toOutcome_iff {e : Executed} : safeOutcome (toOutcome e) = true ↔ e.result ≠ .fail := by
  obtain ⟨r, s⟩ := e
  cases r <;> simp [toOutcome, safeOutcome]

/-- The spec's step fails exactly at a division by zero (60_exceptions.md R192). -/
theorem stepWithResult_fail_iff {s : State} : (stepWithResult s).result = .fail ↔
    ∃ (pos1 pos2 : BeltPos) (n : Nat), decode s.fetch.1 s.fetch.2 = some (.registerDiv pos1 pos2, n) ∧
      s.peek pos2.toNat = 0 := by
  obtain ⟨hdec, hstep⟩ | ⟨i, n, hdec, hstep⟩ := stepWithResult_cases s
  · simp [hdec, hstep]
  · rw [hstep, updatePc_result, execute_fail_iff, hdec]
    constructor
    · rintro ⟨pos1, pos2, rfl, hzero⟩
      exact ⟨pos1, pos2, n, rfl, hzero⟩
    · rintro ⟨pos1, pos2, k, heq, hzero⟩
      cases heq
      exact ⟨pos1, pos2, rfl, hzero⟩

/-- The spec's step stops exactly at a failed decode or at Break (60_exceptions.md R191). -/
theorem stepWithResult_stop_iff {s : State} : (stepWithResult s).result = .stop ↔
    decode s.fetch.1 s.fetch.2 = none ∨ decode s.fetch.1 s.fetch.2 = some (.zeroBreak, 1) := by
  obtain ⟨hdec, hstep⟩ | ⟨i, n, hdec, hstep⟩ := stepWithResult_cases s
  · simp [hdec, hstep]
  · rw [hstep, updatePc_result, execute_stop_iff]
    constructor
    · rintro rfl
      obtain rfl := words_of_decode hdec
      exact .inr hdec
    · rintro (fails | breaks)
      · cases hdec.symm.trans fails
      · cases hdec.symm.trans breaks
        rfl

/-- A step that stops or fails answers the state it started from (60_exceptions.md R190). -/
theorem stepWithResult_of_halt {s : State} {r : StepResult} (hr : r = .stop ∨ r = .fail)
    (hresult : (stepWithResult s).result = r) : stepWithResult s = ⟨r, s⟩ := by
  obtain ⟨-, hstep⟩ | ⟨i, n, -, hstep⟩ := stepWithResult_cases s
  · rw [hstep] at hresult ⊢
    rw [← hresult]
  · rw [hstep, updatePc_result] at hresult
    rw [hstep]
    rcases (execute_effect i s).ends with h | ⟨dest, h⟩ | ⟨-, h⟩ | ⟨-, h⟩
    · rw [h] at hresult; subst hresult; simp at hr
    · rw [h] at hresult; subst hresult; simp at hr
    · rw [h] at hresult ⊢; rw [updatePc_stop, ← hresult]
    · rw [h] at hresult ⊢; rw [updatePc_fail, ← hresult]

/-- Settles O34. -/
theorem failHasOneCause : Obligations.FailHasOneCause := by
  unfold Obligations.FailHasOneCause
  refine fun s => ⟨stepWithResult_fail_iff, fun hfail => ?unchanged, ?host⟩
  case unchanged => rw [stepWithResult_of_halt (.inr rfl) hfail]
  case host => rw [stepAgreesWithTheSpecStep s, toOutcome_fail_iff]

/-- Settles O35. -/
theorem stopHasTwoCauses : Obligations.StopHasTwoCauses := by
  unfold Obligations.StopHasTwoCauses
  intro s
  rw [stepAgreesWithTheSpecStep s, toOutcome_stop_iff]
  exact ⟨stepWithResult_stop_iff, stepWithResult_of_halt (.inl rfl)⟩

/-- Settles O36: the state of a halt is the state before it, so by induction every step repeats the first. -/
theorem haltRepeatsForEver : Obligations.HaltRepeatsForEver := by
  unfold Obligations.HaltRepeatsForEver
  intro s r hr hresult k
  have halts : stepWithResult s = ⟨r, s⟩ := stepWithResult_of_halt hr hresult
  induction k with
  | zero => rfl
  | succ k ih => simp only [stepsWithResults, halts, ih, List.replicate_succ]

/-- Settles O37. -/
theorem everyInstructionCompletesExceptHalts : Obligations.EveryInstructionCompletesExceptHalts := by
  unfold Obligations.EveryInstructionCompletesExceptHalts
  constructor
  · intro i s
    rcases (execute_effect i s).ends with h | ⟨dest, h⟩ | ⟨breaks, -⟩ | ⟨divides, -⟩
    · left
      rw [exec_eq_complete, complete, updatePc, h]
      exact ⟨_, rfl⟩
    · left
      rw [exec_eq_complete, complete, updatePc, h]
      exact ⟨_, rfl⟩
    · exact .inr (.inl breaks)
    · exact .inr (.inr divides)
  · intro s r
    rw [stepAgreesWithTheSpecStep s]
    exact toOutcome_ne_refused _ r

/-- Settles O38: safe is not failed. -/
theorem stepIsSafeUnlessItDividesByZero : Obligations.StepIsSafeUnlessItDividesByZero := by
  unfold Obligations.StepIsSafeUnlessItDividesByZero
  intro s
  rw [SafeStep, stepAgreesWithTheSpecStep s, safeOutcome_toOutcome_iff, ne_eq, stepWithResult_fail_iff]

end Sys2Proof.Machine

/-! pc: kept and not read during execution, updated once from the result (10_state.md section 3). -/

namespace Sys2Proof.Machine

open Sys2Proof.Claims

theorem State.spill_setPc (b : Belt) (a : Word) : ∀ (n : Nat) (s : State),
    State.spill b n (s.setPc a) = (State.spill b n s).setPc a
  | 0, _ => rfl
  | n + 1, s => State.spill_setPc b a n (s.stackPush (b.peek n))

theorem State.popMany_setPc (a : Word) : ∀ (n : Nat) (s : State),
    State.popMany n (s.setPc a) = ((State.popMany n s).1, (State.popMany n s).2.setPc a)
  | 0, _ => rfl
  | n + 1, s => by
    have ih := State.popMany_setPc a n s.stackPop.2
    show ((s.stackPop.1 :: (State.popMany n (s.stackPop.2.setPc a)).1),
      (State.popMany n (s.stackPop.2.setPc a)).2) = _
    rw [ih]
    rfl

theorem State.repush_setPc (snap : Belt) (a : Word) : ∀ (n : Nat) (s : State),
    State.repush snap n (s.setPc a) = (State.repush snap n s).setPc a
  | 0, _ => rfl
  | n + 1, s => State.repush_setPc snap a n (s.push (snap.peek n))

/-- Ret neither reads nor moves pc before the update. -/
theorem returnWith_setPc (n : Nat) (a : Word) (s : State) :
    returnWith n (s.setPc a) = ⟨(returnWith n s).result, (returnWith n s).state.setPc a⟩ := by
  have reloaded (t : State) (f : Nat → Word) : (t.setPc a).loadBelt f = (t.loadBelt f).setPc a := rfl
  simp only [returnWith, State.popMany_setPc, State.setPc_belt, reloaded, State.repush_setPc]
  rfl

/-- A comparison looks at the belt alone. -/
theorem branches_setPc (test : Word → Word → Bool) (pos1 pos2 : BeltPos) (addr a : Word) (s : State) :
    branches test pos1 pos2 addr (s.setPc a) =
      ⟨(branches test pos1 pos2 addr s).result, (branches test pos1 pos2 addr s).state.setPc a⟩ := by
  unfold branches
  rw [State.setPc_beltAt, State.setPc_beltAt]
  cases test (s.beltAt pos1) (s.beltAt pos2) <;> rfl

theorem ruleRegisterDiv_setPc (pos1 pos2 : BeltPos) (a : Word) (s : State) :
    ruleRegisterDiv pos1 pos2 (s.setPc a) =
      ⟨(ruleRegisterDiv pos1 pos2 s).result, (ruleRegisterDiv pos1 pos2 s).state.setPc a⟩ := by
  unfold ruleRegisterDiv
  rw [State.setPc_beltAt]
  split <;> rfl

/-- No instruction reads pc, and none but the update moves it. -/
theorem execute_setPc (i : Instr) (s : State) (a : Word) :
    execute i (s.setPc a) = ⟨(execute i s).result, (execute i s).state.setPc a⟩ := by
  cases i with
  | constantCall const => simp only [execute_constantCall, State.setPc_belt, State.spill_setPc, jumps]
  | immediateRet pos imm => exact returnWith_setPc imm.toNat a s
  | registerDiv pos1 pos2 => exact ruleRegisterDiv_setPc pos1 pos2 a s
  | branchLt pos1 pos2 addr | branchLe pos1 pos2 addr | branchEq pos1 pos2 addr =>
    exact branches_setPc _ pos1 pos2 addr a s
  | _ => rfl

/-- The one pc update, from the result (40_codec_and_step.md R101). -/
theorem updatePc_pc (n : Nat) (e : Executed) : (updatePc n e).state.pc =
    match e.result with
    | .cont => e.state.pc + BitVec.ofNat 16 n
    | .jump dest => dest
    | .stop => e.state.pc
    | .fail => e.state.pc := by
  obtain ⟨r, s⟩ := e
  cases r <;> rfl

theorem advanced_of_pc_eq {n : Nat} {s t : State} (h : t.pc = s.pc + BitVec.ofNat 16 n) : Advanced n s t := by
  rw [Advanced, h, BitVec.toNat_add, BitVec.toNat_ofNat, Nat.add_mod_mod]

/-- The linking Call stores the address behind it at the old sp, and the spill below leaves that word alone. -/
theorem memRead_link {const : Word} {s : State} (hwf : s.mem.wf = true) :
    (ruleConstantCallWith .pushNextPc const s).state.memRead s.sp = s.pc + 2 := by
  have above_the_spill (i : Nat) (hi : i < 16) : s.sp ≠ (s.stackPush (s.pc + 2)).sp - BitVec.ofNat 16 i := by
    rw [State.stackPush_sp]
    bv_omega
  rw [ruleConstantCallWith_pushNextPc, jumps_state, State.memRead_spill_other s.belt 16 above_the_spill,
    State.memRead_stackPush hwf, if_pos rfl]

/-- Settles O31. -/
theorem pcIsUpdatedOnceFromTheResult : Obligations.PcIsUpdatedOnceFromTheResult := by
  unfold Obligations.PcIsUpdatedOnceFromTheResult
  refine ⟨fun s i n hdec => ⟨?length, (execute_effect i s).pc_eq, ?update⟩, fun s i a => execute_setPc i s a,
    fun const s => memRead_link⟩
  case length =>
    rw [words_of_decode hdec]
    exact i.opClass.words_eq_two_or_one.symm
  case update =>
    have updated := updatePc_pc n (execute i s)
    rw [(execute_effect i s).pc_eq] at updated
    rw [stepWithResult_of_decode_some hdec, updatePc_result]
    cases hresult : (execute i s).result <;> rw [hresult] at updated
    case cont => exact advanced_of_pc_eq updated
    case jump | stop | fail => exact updated

end Sys2Proof.Machine

/-! Fetch coherence (20_memory.md section 3). -/

namespace Sys2Proof.Machine

theorem execute_registerSave (pos1 pos2 : BeltPos) (s : State) : execute (.registerSave pos1 pos2) s =
    continues (s.memWrite (s.peek pos2.toNat) (s.peek pos1.toNat)) := rfl

theorem exec_registerSave (pos1 pos2 : BeltPos) (s : State) : exec (.registerSave pos1 pos2) s =
    .next ((s.memWrite (s.peek pos2.toNat) (s.peek pos1.toNat)).setPc (s.pc + 1)) := by
  rw [exec_eq_complete, execute_registerSave, complete_continues]
  rfl

/-- Settles O41: the next fetch reads the stored word at the next address, and the word behind it as it was. -/
theorem storedWordIsFetchedNext : Obligations.StoredWordIsFetchedNext := by
  unfold Obligations.StoredWordIsFetchedNext
  intro s pos1 pos2 hwf hdec
  refine ⟨_, (step_of_decode_some hdec).trans (exec_registerSave pos1 pos2 s), State.setPc_pc _ _, ?stored,
    fun hnext => ?fetched⟩
  case stored => rw [State.setPc_memRead, State.memRead_memWrite hwf, if_pos rfl]
  case fetched =>
    have behind_ne : s.pc + 1 + 1 ≠ s.pc + 1 := by bv_omega
    have behind : s.pc + 1 + 1 = s.pc + 2 := by bv_omega
    have fetch : ((s.memWrite (s.peek pos2.toNat) (s.peek pos1.toNat)).setPc (s.pc + 1)).fetch =
        (s.peek pos1.toNat, s.memRead (s.pc + 2)) := by
      rw [State.fetch_eq, State.setPc_pc, State.setPc_memRead, State.setPc_memRead, hnext,
        State.memRead_memWrite hwf, if_pos rfl, State.memRead_memWrite hwf, if_neg behind_ne, behind]
    exact ⟨fun i n h => step_of_decode_some (by rw [fetch]; exact h),
      fun h => step_of_decode_none (by rw [fetch]; exact h)⟩

end Sys2Proof.Machine

/-! The instructions that push one computed value (43_immediate.md, 44_register.md), over the integers. -/

namespace Sys2Proof.Machine

open Sys2Proof.Claims

/-- `pushesAndContinues_of_execute_eq` with the pushed word given as a number. -/
theorem pushesAndContinues_of_toNat_eq {i : Instr} {s : State} {v : Word} {k : Nat} (hrule : execute i s = pushes v s)
    (hv : v.toNat = k) : PushesAndContinues i s i.words k :=
  hv ▸ pushesAndContinues_of_execute_eq hrule

section
variable (pos1 pos2 : BeltPos) (s : State)

theorem execute_registerAdd : execute (.registerAdd pos1 pos2) s =
    pushes (s.peek pos1.toNat + s.peek pos2.toNat) s := rfl

theorem execute_registerSub : execute (.registerSub pos1 pos2) s =
    pushes (s.peek pos1.toNat - s.peek pos2.toNat) s := rfl

theorem execute_registerMul : execute (.registerMul pos1 pos2) s =
    pushes (s.peek pos1.toNat * s.peek pos2.toNat) s := rfl

theorem execute_registerDiv {pos2 : BeltPos} (hdivisor : s.peek pos2.toNat ≠ 0) : execute (.registerDiv pos1 pos2) s =
    pushes (s.peek pos1.toNat / s.peek pos2.toNat) s :=
  if_neg hdivisor

theorem execute_registerAnd : execute (.registerAnd pos1 pos2) s =
    pushes (s.peek pos1.toNat &&& s.peek pos2.toNat) s := rfl

theorem execute_registerOr : execute (.registerOr pos1 pos2) s =
    pushes (s.peek pos1.toNat ||| s.peek pos2.toNat) s := rfl

theorem execute_registerXor : execute (.registerXor pos1 pos2) s =
    pushes (s.peek pos1.toNat ^^^ s.peek pos2.toNat) s := rfl

theorem execute_registerShiftLeft : execute (.registerShiftLeft pos1 pos2) s =
    pushes (s.peek pos1.toNat <<< ((s.peek pos2.toNat).toNat % 16)) s := rfl

theorem execute_registerShiftRight : execute (.registerShiftRight pos1 pos2) s =
    pushes (s.peek pos1.toNat >>> ((s.peek pos2.toNat).toNat % 16)) s := rfl

end

theorem execute_immediateShiftLeft (pos : BeltPos) (imm : Imm4) (s : State) : execute (.immediateShiftLeft pos imm) s =
    pushes (s.peek pos.toNat <<< imm.toNat) s := rfl

theorem execute_immediateShiftRight (pos : BeltPos) (imm : Imm4) (s : State) :
    execute (.immediateShiftRight pos imm) s = pushes (s.peek pos.toNat >>> imm.toNat) s := rfl

/-- The low 16 bits of the exact product with a power of two (43_immediate.md R131). -/
theorem toNat_shiftLeft_word (x : Word) (k : Nat) : (x <<< k).toNat = x.toNat * 2 ^ k % 65536 := by
  rw [BitVec.toNat_shiftLeft, Nat.shiftLeft_eq]

/-- Zeros enter at the top, so a right shift is the quotient by a power of two (43_immediate.md R132). -/
theorem toNat_shiftRight_word (x : Word) (k : Nat) : (x >>> k).toNat = x.toNat / 2 ^ k := by
  rw [BitVec.toNat_ushiftRight, Nat.shiftRight_eq_div_pow]

theorem toNat_sub_word (x y : Word) : (x - y).toNat = (x.toNat + 65536 - y.toNat) % 65536 := by
  bv_omega

/-- Settles O20. -/
theorem registerArithmeticWraps : Obligations.RegisterArithmeticWraps := by
  unfold Obligations.RegisterArithmeticWraps
  intro pos1 pos2 s
  exact ⟨pushesAndContinues_of_toNat_eq (execute_registerAdd pos1 pos2 s) (BitVec.toNat_add _ _),
    pushesAndContinues_of_toNat_eq (execute_registerSub pos1 pos2 s) (toNat_sub_word _ _),
    pushesAndContinues_of_toNat_eq (execute_registerMul pos1 pos2 s) (BitVec.toNat_mul _ _)⟩

/-- Settles O21. -/
theorem registerDivPushesQuotientOrFails : Obligations.RegisterDivPushesQuotientOrFails := by
  unfold Obligations.RegisterDivPushesQuotientOrFails
  refine fun pos1 pos2 s => ⟨fun hdivisor => ?quotient, fun hzero => ⟨execute_registerDiv_zero hzero, ?fails⟩⟩
  case quotient => exact pushesAndContinues_of_toNat_eq (execute_registerDiv pos1 s hdivisor) BitVec.toNat_udiv
  case fails =>
    rw [exec_eq_complete, execute_registerDiv_zero hzero]
    rfl

/-- Settles O22: a bitwise operation on words is the one on their numbers. -/
theorem registerLogicPushesCombination : Obligations.RegisterLogicPushesCombination := by
  unfold Obligations.RegisterLogicPushesCombination
  intro pos1 pos2 s
  exact ⟨pushesAndContinues_of_toNat_eq (execute_registerAnd pos1 pos2 s) (BitVec.toNat_and _ _),
    pushesAndContinues_of_toNat_eq (execute_registerOr pos1 pos2 s) (BitVec.toNat_or _ _),
    pushesAndContinues_of_toNat_eq (execute_registerXor pos1 pos2 s) (BitVec.toNat_xor _ _)⟩

/-- Settles O23: the default rule reduces the amount before the shift; the other value of the parameter tests it. -/
theorem registerShiftsReduceTheAmount : Obligations.RegisterShiftsReduceTheAmount := by
  unfold Obligations.RegisterShiftsReduceTheAmount
  refine ⟨fun pos1 pos2 s => ⟨?left, ?right⟩, fun shift x y => ⟨fun hlarge => ?zero, fun hsmall => ?same⟩⟩
  case left =>
    exact pushesAndContinues_of_toNat_eq (execute_registerShiftLeft pos1 pos2 s) (toNat_shiftLeft_word _ _)
  case right =>
    exact pushesAndContinues_of_toNat_eq (execute_registerShiftRight pos1 pos2 s) (toNat_shiftRight_word _ _)
  case zero => exact if_pos hlarge
  case same =>
    simp only [shiftByWordWith, Nat.mod_eq_of_lt hsmall]
    exact if_neg (Nat.not_le.2 hsmall)

/-- Settles O17. -/
theorem immediateShiftsPushShiftedValue : Obligations.ImmediateShiftsPushShiftedValue := by
  unfold Obligations.ImmediateShiftsPushShiftedValue
  intro pos imm s
  exact ⟨pushesAndContinues_of_toNat_eq (execute_immediateShiftLeft pos imm s) (toNat_shiftLeft_word _ _),
    pushesAndContinues_of_toNat_eq (execute_immediateShiftRight pos imm s) (toNat_shiftRight_word _ _)⟩

end Sys2Proof.Machine

/-! Save, the branches, and classes Unary and Zero (44_register.md R150, 45_branch.md, 46_unary.md, 47_zero.md). -/

namespace Sys2Proof.Machine

open Sys2Proof.Claims

/-- Settles O24. -/
theorem registerSaveStoresOneWord : Obligations.RegisterSaveStoresOneWord := by
  unfold Obligations.RegisterSaveStoresOneWord
  intro pos1 pos2 s hwf
  refine ⟨by rw [execute_registerSave]; rfl, _, exec_registerSave pos1 pos2 s, ?stored, fun a ha => ?other,
    fun _ _ => rfl, rfl, advanced_of_pc_eq rfl⟩
  case stored => rw [State.setPc_memRead, State.memRead_memWrite hwf, if_pos rfl]
  case other => rw [State.setPc_memRead, State.memRead_memWrite hwf, if_neg ha]

/-- An instruction whose rule continues from the unchanged state moves past its own words and has no other effect. -/
theorem onlyContinues_of_execute_eq {i : Instr} {s : State} (hrule : execute i s = continues s) :
    OnlyContinues i s i.words := by
  have continued : (execute i s).result = .cont := by rw [hrule]; rfl
  have completed : exec i s = .next (s.setPc (s.pc + BitVec.ofNat 16 i.words)) := by
    rw [exec_eq_complete, hrule, complete_continues]
  exact ⟨continued, _, completed, advanced_setPc _ _ _, fun k _ => State.setPc_peek s _ k, State.setPc_memRead s _,
    State.setPc_sp s _⟩

/-- A branch whose comparison decides `P` only jumps where `P` holds and else only continues (45_branch.md R160). -/
theorem branch_ite {i : Instr} {s : State} {test : Word → Word → Bool} {pos1 pos2 : BeltPos} {addr : Word} {P : Prop}
    [Decidable P] (hrule : execute i s = branches test pos1 pos2 addr s)
    (hP : test (s.peek pos1.toNat) (s.peek pos2.toNat) = true ↔ P) :
    if P then OnlyJumps i s addr else OnlyContinues i s i.words := by
  rcases branches_cases test pos1 pos2 addr s with ⟨holds, taken⟩ | ⟨fails, not_taken⟩
  · rw [if_pos (hP.1 holds)]
    exact onlyJumps_of_execute_eq (hrule.trans taken)
  · have not_P : ¬ P := fun p => Bool.false_ne_true (fails.symm.trans (hP.2 p))
    rw [if_neg not_P]
    exact onlyContinues_of_execute_eq (hrule.trans not_taken)

theorem ltWords_iff (x y : Word) : ltWords x y = true ↔ x.toNat < y.toNat := BitVec.ult_iff_lt
theorem leWords_iff (x y : Word) : leWords x y = true ↔ x.toNat ≤ y.toNat := BitVec.ule_iff_le
theorem eqWords_iff (x y : Word) : eqWords x y = true ↔ x.toNat = y.toNat := by
  rw [eqWords, beq_iff_eq, BitVec.toNat_inj]

/-- Settles O25. -/
theorem branchesJumpOrFallThrough : Obligations.BranchesJumpOrFallThrough := by
  unfold Obligations.BranchesJumpOrFallThrough
  intro pos1 pos2 addr s
  exact ⟨branch_ite (i := .branchLt pos1 pos2 addr) rfl (ltWords_iff _ _),
    branch_ite (i := .branchLe pos1 pos2 addr) rfl (leWords_iff _ _),
    branch_ite (i := .branchEq pos1 pos2 addr) rfl (eqWords_iff _ _)⟩

theorem execute_unaryLoad (pos : BeltPos) (s : State) :
    execute (.unaryLoad pos) s = pushes (s.memRead (s.peek pos.toNat)) s := rfl

theorem execute_unaryJump (pos : BeltPos) (s : State) : execute (.unaryJump pos) s = jumps (s.peek pos.toNat) s := rfl

theorem execute_unaryPush (pos : BeltPos) (s : State) :
    execute (.unaryPush pos) s = continues (s.stackPush (s.peek pos.toNat)) := rfl

theorem exec_unaryPush (pos : BeltPos) (s : State) :
    exec (.unaryPush pos) s = .next ((s.stackPush (s.peek pos.toNat)).setPc (s.pc + 1)) := by
  rw [exec_eq_complete, execute_unaryPush, complete_continues]
  rfl

/-- A nibble its class does not use must be zero (30_encoding.md R76). -/
theorem decode_none_of_op2 {c : OpClass} (hc : c.usesOp2 = false) (sub op1 : BitVec 4) {op2 : BitVec 4} (h2 : op2 ≠ 0)
    (w1 : Word) : decode (firstWord c.main sub op1 op2) w1 = none := by
  have hmain : mainField (firstWord c.main sub op1 op2) = c.main := mainField_firstWord _ _ _ _
  rw [decode, ← Option.not_isSome_iff_eq_none, decodeWith_isSome_iff_of_main hmain, op2Field_firstWord]
  rintro ⟨-, -, zero⟩
  exact h2 (zero hc)

/-- Settles O26. -/
theorem unaryClassUsesBeltValue : Obligations.UnaryClassUsesBeltValue := by
  unfold Obligations.UnaryClassUsesBeltValue
  refine ⟨fun pos s hwf => ⟨?load, ?jump, ?push_result, ?push⟩, fun sub op1 op2 w1 h2 => ?operand_nibble⟩
  case load => exact pushesAndContinues_of_execute_eq (execute_unaryLoad pos s)
  case jump => exact onlyJumps_of_execute_eq (execute_unaryJump pos s)
  case push_result => rw [execute_unaryPush]; rfl
  case push =>
    refine ⟨_, exec_unaryPush pos s, ?stored, fun a ha => ?other,
      State.stackPush_sp_wraps s (s.peek pos.toNat), fun _ _ => rfl, advanced_of_pc_eq rfl⟩
    case stored => rw [State.setPc_memRead, State.memRead_stackPush hwf, if_pos rfl]
    case other => rw [State.setPc_memRead, State.memRead_stackPush hwf, if_neg ha]
  case operand_nibble => exact decode_none_of_op2 (c := .unary) rfl sub op1 h2 w1

theorem exec_zeroPop (s : State) : exec .zeroPop s =
    .next ((s.stackPop.2.push (s.memRead (s.sp + 1))).setPc (s.pc + 1)) := by
  rw [exec_eq_complete, show execute .zeroPop s = pushes s.stackPop.1 s.stackPop.2 from rfl, complete_pushes,
    State.stackPop_fst, State.stackPop_snd_pc]
  rfl

/-- Pop is one push of the word one above sp. -/
theorem pushed_zeroPop (s : State) :
    Pushed s ((s.stackPop.2.push (s.memRead (s.sp + 1))).setPc (s.pc + 1)) (s.memRead (s.sp + 1)) :=
  pushed_of_belt_eq rfl

/-- The legal words of class Zero are its three operations' (30_encoding.md R71). -/
theorem decode_isSome_of_main_zero {w0 w1 : Word} (hmain : mainField w0 = 7) :
    (decode w0 w1).isSome = true ↔ ∃ op : ZeroOp, w0 = firstWord 7 (subopMap.zero op) 0 0 := by
  rw [decode, decodeWith_isSome_iff_of_main (c := .zero) hmain, OpClass.codes, List.mem_map]
  constructor
  · rintro ⟨⟨op, -, hsub⟩, h1, h2⟩
    refine ⟨op, ?_⟩
    rw [← firstWord_fields w0, hmain, h1 rfl, h2 rfl, hsub]
  · rintro ⟨op, rfl⟩
    exact ⟨⟨op, op.mem_all, (subField_firstWord _ _ _ _).symm⟩, fun _ => op1Field_firstWord _ _ _ _,
      fun _ => op2Field_firstWord _ _ _ _⟩

/-- Settles O27. -/
theorem zeroClassNopPopBreak : Obligations.ZeroClassNopPopBreak := by
  unfold Obligations.ZeroClassNopPopBreak
  refine ⟨fun s => ⟨?nop, rfl, ⟨_, exec_zeroPop s, pushed_zeroPop s, ?pop_sp, fun _ => rfl, ?pop_pc⟩,
    execute_zeroBreak s, ?break_halts⟩, fun sub op1 op2 w1 hop => ?operand_nibbles,
    fun w0 w1 => decode_isSome_of_main_zero⟩
  case nop => exact onlyContinues_of_execute_eq (i := .zeroNop) rfl
  case pop_sp =>
    rw [State.setPc_sp, State.push_sp, State.stackPop_snd_sp]
    bv_omega
  case pop_pc => exact advanced_of_pc_eq rfl
  case break_halts =>
    rw [exec_eq_complete, execute_zeroBreak]
    rfl
  case operand_nibbles => exact decodeWith_none_of_operand_nibble (c := .zero) (.inr rfl) subopMap sub hop w1

/-- Settles O28: the pop reads at the sp of before the push, which the push wrote. -/
theorem popAfterPushCopiesTheValue : Obligations.PopAfterPushCopiesTheValue := by
  unfold Obligations.PopAfterPushCopiesTheValue
  intro pos s hwf
  have sp_back : s.sp - 1 + 1 = s.sp := by bv_omega
  have at_old_sp : (s.stackPush (s.peek pos.toNat)).memRead s.sp = s.peek pos.toNat := by
    rw [State.memRead_stackPush hwf, if_pos rfl]
  have popped : ((s.stackPush (s.peek pos.toNat)).setPc (s.pc + 1)).memRead
      (((s.stackPush (s.peek pos.toNat)).setPc (s.pc + 1)).sp + 1) = s.peek pos.toNat := by
    rw [State.setPc_memRead, State.setPc_sp, State.stackPush_sp, sp_back, at_old_sp]
  refine ⟨_, _, exec_unaryPush pos s, exec_zeroPop _, ?pushed, sp_back, fun _ => rfl, at_old_sp, advanced_of_pc_eq ?pc⟩
  case pushed =>
    rw [popped]
    exact pushed_of_belt_eq rfl
  case pc =>
    rw [State.setPc_pc, State.setPc_pc]
    bv_omega

end Sys2Proof.Machine

/-! Call, Ret and the round trip (42_constant.md R123, 43_immediate.md R133, 95_test_vectors.md S6). -/

namespace Sys2Proof.Machine

open Sys2Proof.Claims

/-- The whole spill, in the words of the rule: position `i` at its own address, every other address as before. -/
theorem memRead_spill_belt {s : State} (hwf : s.mem.wf = true) (b : Belt) :
    (∀ i, i < 16 → (State.spill b 16 s).memRead (spillAddress s.sp i) = b.peek i) ∧
      ∀ a, (∀ i, i < 16 → a ≠ spillAddress s.sp i) → (State.spill b 16 s).memRead a = s.memRead a := by
  obtain ⟨spilled, other⟩ := State.memRead_spill b 16 hwf (le_refl 16)
  refine ⟨spilled, fun a ha => other a fun i hi => ?_⟩
  have := ha (15 - i) (by omega)
  rwa [spillAddress, show 15 - (15 - i) = i by omega] at this

/-- Settles O14. -/
theorem callSpillsTheBelt : Obligations.CallSpillsTheBelt := by
  unfold Obligations.CallSpillsTheBelt
  intro const s hwf
  obtain ⟨spilled, other⟩ := memRead_spill_belt hwf s.belt
  refine ⟨_, exec_constantCall const s, fun i hi => ?spilled, fun a ha => ?other, ?sp, sameBelt_of_belt_eq ?belt,
    State.setPc_pc _ _⟩
  case spilled => rw [State.setPc_memRead, spilled i hi, State.peek]
  case other => rw [State.setPc_memRead, other a ha]
  case sp =>
    rw [State.setPc_sp, State.spill_sp]
    bv_omega
  case belt => rw [State.setPc_belt, State.spill_belt]

/-- Settles O18. -/
theorem retRestoresTheBeltAndReturns : Obligations.RetRestoresTheBeltAndReturns := by
  unfold Obligations.RetRestoresTheBeltAndReturns
  intro pos imm s
  obtain ⟨-, front, behind, hsp, hmem, -⟩ := returnWith_spec (imm4_le_sixteen imm) s
  refine ⟨_, exec_immediateRet pos imm s, front, fun j hj => ?behind, State.setPc_pc _ _, ?sp, fun a => ?memory⟩
  case behind => rw [State.setPc_peek, behind j hj, Nat.add_comm]
  case sp =>
    rw [State.setPc_sp, hsp]
    bv_omega
  case memory => rw [State.setPc_memRead, State.memRead, hmem, State.memRead]

/-- Settles O16: every operation's words are those of an encoded instruction, and the shifts' values those of O17. -/
theorem immediateClassDecodesAndCompletes : Obligations.ImmediateClassDecodesAndCompletes := by
  unfold Obligations.ImmediateClassDecodesAndCompletes
  refine ⟨fun m hm op pos imm w1 => ?decodes, fun pos imm s => ⟨?shift_left, ?shift_right, ?ret_jumps, ?ret_returns⟩⟩
  case decodes =>
    simpa [Instr.words, OpClass.words] using decodeWith_encodeWith hm (Instr.ofImmediate op pos imm) w1
  case shift_left => exact ⟨_, (immediateShiftsPushShiftedValue pos imm s).1⟩
  case shift_right => exact ⟨_, (immediateShiftsPushShiftedValue pos imm s).2⟩
  case ret_jumps => exact resultsByInstruction (.immediateRet pos imm) s
  case ret_returns =>
    obtain ⟨-, front, -⟩ := returnWith_spec (imm4_le_sixteen imm) s
    exact ⟨_, fun pos' => exec_immediateRet pos' imm s, front⟩

/-- A Call behind one stack push leaves a frame of seventeen words: the word pushed at the sp of before the push, the belt
below it, and every other word of memory as before. -/
theorem exec_constantCall_after_stackPush (const v a : Word) {s : State} (hwf : s.mem.wf = true) :
    ∃ t : State, exec (.constantCall const) ((s.stackPush v).setPc a) = .next t ∧ t.pc = const ∧ t.sp = s.sp - 17 ∧
      SameBelt s t ∧ t.memRead s.sp = v ∧ (∀ i, i < 16 → t.memRead (spillAddress (s.sp - 1) i) = s.peek i) ∧
      ∀ c, c ≠ s.sp → (∀ i, i < 16 → c ≠ spillAddress (s.sp - 1) i) → t.memRead c = s.memRead c := by
  obtain ⟨t, called, spilled, other, -, belt, pc⟩ :=
    callSpillsTheBelt const ((s.stackPush v).setPc a) (State.stackPush_wf hwf v)
  simp only [State.setPc_sp, State.stackPush_sp, State.setPc_peek, State.stackPush_peek, State.setPc_memRead]
    at spilled other
  have sp : t.sp = s.sp - 17 := by
    rw [onlyStackInstructionsChangeSp _ _ t called, spAfter, State.setPc_sp, State.stackPush_sp]
    bv_omega
  have above_the_spill (i : Nat) (_ : i < 16) : s.sp ≠ spillAddress (s.sp - 1) i := by
    rw [spillAddress]
    bv_omega
  refine ⟨t, called, pc, sp, belt, ?pushed, spilled, fun c hc hspill => ?elsewhere⟩
  case pushed => rw [other s.sp above_the_spill, State.memRead_stackPush hwf, if_pos rfl]
  case elsewhere => rw [other c hspill, State.memRead_stackPush hwf, if_neg hc]

/-- A Call that links is a push of the address behind it and a Call that does not (42_constant.md R123). -/
theorem complete_ruleConstantCallWith_pushNextPc (const : Word) (s : State) :
    complete 2 (ruleConstantCallWith .pushNextPc const s) =
      exec (.constantCall const) ((s.stackPush (s.pc + 2)).setPc s.pc) := by
  rw [ruleConstantCallWith_pushNextPc, complete_jumps, exec_constantCall]
  rfl

/-- Settles O15: the link stands at the old sp, above the spill, and there the Ret's seventeenth pop reads it. -/
theorem callWithLinkReturnsBehindTheCall : Obligations.CallWithLinkReturnsBehindTheCall := by
  unfold Obligations.CallWithLinkReturnsBehindTheCall
  intro const s pos imm hwf
  obtain ⟨t, called, t_pc, t_sp, belt, link, spilled, other⟩ :=
    exec_constantCall_after_stackPush const (s.pc + 2) s.pc hwf
  obtain ⟨u, returned, -, -, u_pc, -, -⟩ := retRestoresTheBeltAndReturns pos imm t
  have sp_back : t.sp + 17 = s.sp := by rw [t_sp]; bv_omega
  refine ⟨t, (complete_ruleConstantCallWith_pushNextPc const s).trans called, t_pc, t_sp, belt, link, spilled, other, u,
    returned, ?pc, ?sp⟩
  case pc => rw [u_pc, sp_back, link]
  case sp => rw [onlyStackInstructionsChangeSp _ _ u returned, spAfter, sp_back]

/-- Settles O19: Ret reads the frame that the push and the Call left, from the sp the Call left. -/
theorem callThenRetRoundTrip : Obligations.CallThenRetRoundTrip := by
  unfold Obligations.CallThenRetRoundTrip
  intro s ret pos const imm hwf
  obtain ⟨s2, called, s2_pc, s2_sp, belt, return_address, spilled, -⟩ :=
    exec_constantCall_after_stackPush const (s.peek ret.toNat) (s.pc + 1) hwf
  have sp_back : s2.sp + 17 = s.sp := by rw [s2_sp]; bv_omega
  have frame_address (j : Nat) (hj : j < 16) : s2.sp + BitVec.ofNat 16 (1 + j) = spillAddress (s.sp - 1) j := by
    rw [s2_sp, spillAddress]
    bv_omega
  refine ⟨_, s2, exec_unaryPush ret s, called, s2_pc, belt, fun u u_sp frame => ?_⟩
  obtain ⟨t, returned, front, behind, t_pc, -, t_mem⟩ := retRestoresTheBeltAndReturns pos imm u
  have popped (j : Nat) (h1 : 1 ≤ j) (h17 : j ≤ 17) :
      u.memRead (u.sp + BitVec.ofNat 16 j) = s2.memRead (s2.sp + BitVec.ofNat 16 j) := by
    rw [u_sp, frame j h1 h17]
  refine ⟨t, returned, ?return_pc, ?return_sp, front, fun j hj => ?behind, t_mem⟩
  case return_pc =>
    calc t.pc = u.memRead (u.sp + 17) := t_pc
      _ = s2.memRead (s2.sp + 17) := popped 17 (by omega) (by omega)
      _ = s.peek ret.toNat := by rw [sp_back, return_address]
  case return_sp => rw [onlyStackInstructionsChangeSp _ _ t returned, spAfter, u_sp, sp_back]
  case behind =>
    calc t.peek (imm.toNat + j) = u.memRead (u.sp + BitVec.ofNat 16 (1 + j)) := behind j hj
      _ = s2.memRead (s2.sp + BitVec.ofNat 16 (1 + j)) := popped (1 + j) (by omega) (by omega)
      _ = s.peek j := by rw [frame_address j (by omega), spilled j (by omega)]

end Sys2Proof.Machine
